-- ==== Sys2Proof/Word.lean ====
section
/-! DEFINITION. The data types of 00_scope.md rule R7: bytes, byte strings and the 32-bit words of the packet header and of STATUS. -/

namespace Sys2Proof

/-- An 8-bit unsigned value (R7). -/
abbrev Byte := BitVec 8

/-- A finite list of bytes; position 0 is the first byte (R7). -/
abbrev Bytes := List Byte

/-- The width of the packet header (R81) and of STATUS (R28). -/
abbrev Word32 := BitVec 32

end Sys2Proof
end

