-- ==== Sys2Proof/Syntax.lean ====
section
/-! DEFINITION. The commands of the block, one constructor per row of spec/opcode_table.json, with the operands that Decode (30_encoding.md rule R86) gives them. -/

namespace Sys2Proof

/-- The parameter set (R4), chosen by the PSET field of CONSTRUCT. -/
inductive ParamSet where
  /-- PSET = 0. -/
  | kmac128
  /-- PSET = 1. -/
  | kmac256
deriving DecidableEq, Repr

/-- A decoded command. Integer operands are the 64-bit ARG zero-extended to a natural number (R82). -/
inductive Instr where
  /-- CONSTRUCT: parameter set, key K and customization S (R140). -/
  | construct (ps : ParamSet) (key custom : Bytes)
  /-- UPDATE: the message chunk D (R150). -/
  | update (data : Bytes)
  /-- FINALIZE_FIXED: the output length L in bytes (R171). -/
  | finalizeFixed (len : Nat)
  /-- FINALIZE_XOF (R172). -/
  | finalizeXof
  /-- READ: the number n of bytes to read (R190). -/
  | read (count : Nat)
deriving DecidableEq, Repr

/-- The five assigned opcodes (R84). -/
inductive Opcode where
  | construct | update | finalizeFixed | finalizeXof | read
deriving DecidableEq, Repr

end Sys2Proof
end

