-- ==== Sys2Proof/Config.lean ====
section
/-! DEFINITION. What is fixed before reset is released (70_reset_and_hazards.md rule R253): the two numeric parameters of 00_scope.md rule R5 and the collaborator on the port; and the collaborator's output function. The parts the spec leaves open are constants without a body. -/

namespace Sys2Proof

/-- One call on the collaborator port, with its answer where it has one (R224). -/
inductive SpCall where
  | construct (label custom : Bytes) (ps : ParamSet)
  | absorb (bytes : Bytes)
  | squeeze (answer : Bytes)
deriving DecidableEq, Repr

/-- The collaborator on the port. The block does not check it (R226). -/
inductive Collaborator where
  /-- It meets the contract of R225, as R253 asks. -/
  | meetsContract
  /-- It departs from R225: its answers are any R bytes (R226, log 16). -/
  | departs
deriving DecidableEq, Repr

/-- The configuration of one block: fixed before reset is released, and no command changes it (R253). -/
structure Params where
  /-- ENC_LIMIT, 1..255; 255 is the normative value (R5, R117). -/
  encLimit : Nat
  /-- MIN_KEY_BYTES, any natural number; OPEN (R5, R216). -/
  minKeyBytes : Nat
  /-- The collaborator attached to the port (R253, R226). -/
  collab : Collaborator
deriving DecidableEq, Repr

/-- The range R5 gives ENC_LIMIT. -/
abbrev Params.inRange (c : Params) : Prop := 1 ≤ c.encLimit ∧ c.encLimit ≤ 255

/-- MIN_KEY_BYTES of the block that State.reset describes. The spec leaves it OPEN (92 D12): nothing can be proved of its value (log 4). -/
opaque Config.minKeyBytes : Nat

/-- SpOut(pset, S, A): byte i of the collaborator's output stream (R5, R225). The spec assumes nothing of it except that it is a function
of these arguments (92 D14): nothing can be proved of its values (log 3). -/
opaque Config.spOut : ParamSet → Bytes → Bytes → Nat → Byte

/-- Byte i of what a collaborator that departs from R225 answers to an SpSqueeze, after the given calls. The spec says nothing of it: nothing can be
proved of its values (R226, log 16). -/
opaque Config.departedByte : List SpCall → Nat → Byte

/-- The configuration at State.reset: the normative ENC_LIMIT (R5, log 5), the open MIN_KEY_BYTES (log 4) and a collaborator that meets R225, which R253
asks for before reset is applied. -/
def Config.atReset : Params where
  encLimit := 255
  minKeyBytes := Config.minKeyBytes
  collab := .meetsContract

end Sys2Proof
end

