-- ==== Sys2Proof/WellFormed.lean ====
section
/-! DEFINITION. Which commands a packet of the channel can carry: a well-formed packet has at most 2^64 - 1 bytes (20_memory.md rule R60) and an argument is a 64-bit word (30_encoding.md rule R82). -/

namespace Sys2Proof

/-- The command fits one packet: its packet length stays below 2^64 (R60) and its ARG below 2^64 (R82).
FINALIZE_FIXED with L = 0 is well formed: the packet decodes, and the command is rejected when it runs (R215). -/
def Instr.wf : Instr → Bool
  | .construct _ key custom => decide (12 + key.length + custom.length < 2 ^ 64)
  | .update data => decide (4 + data.length < 2 ^ 64)
  | .finalizeFixed len => decide (len < 2 ^ 64)
  | .finalizeXof => true
  | .read count => decide (count < 2 ^ 64)

end Sys2Proof
end

