-- ==== Sys2Proof/Decode.lean ====
section
/-! DEFINITION. Packets: byte-string slices and byte order, Decode (30_encoding.md rule R86) rejecting by name, the encoder (rule R89), and the packet that a word of spec/opcode_table.json stands for. -/

namespace Sys2Proof

/-- `s[a:b]`, the bytes at positions a..b-1 (R7). -/
def slice (s : Bytes) (a b : Nat) : Bytes := (s.drop a).take (b - a)

/-- `be(s)`: the natural number whose big-endian base-256 digits are s (R7). -/
def be (s : Bytes) : Nat := s.foldl (fun acc b => acc * 256 + b.toNat) 0

/-- The n low base-256 digits of x, most significant first: digit i is (x div 256^(n-1-i)) mod 256 (R62, R63, R110). -/
def beBytes (n x : Nat) : Bytes :=
  (List.range n).map fun i => BitVec.ofNat 8 (x / 256 ^ (n - 1 - i) % 256)

/-- The parameter set a PSET bit names (R4). -/
def ParamSet.ofBit (b : BitVec 1) : ParamSet := if b = 0 then .kmac128 else .kmac256

/-- The PSET bit of a parameter set (R4). -/
def ParamSet.bit : ParamSet → BitVec 1
  | .kmac128 => 0
  | .kmac256 => 1

/-- The opcode map (R84): five assigned values, 251 reserved. -/
def opcodeOf (opc : BitVec 8) : Option Opcode :=
  match opc.toNat with
  | 1 => some .construct
  | 2 => some .update
  | 3 => some .finalizeFixed
  | 4 => some .finalizeXof
  | 5 => some .read
  | _ => none

/-- The opcode byte of an assigned opcode (R84). -/
def Opcode.code : Opcode → BitVec 8
  | .construct => 1
  | .update => 2
  | .finalizeFixed => 3
  | .finalizeXof => 4
  | .read => 5

/-- Why Decode rejects a packet, in the order of R86's checks; every reason reports ILLEGAL (R87, R214). -/
inductive DecodeReject where
  /-- PLEN < 4. -/
  | shortPacket
  /-- RSVD ≠ 0. -/
  | reservedBits
  /-- OPC is 0x00 or 0x06..0xFF. -/
  | unassignedOpcode
  /-- PSET = 1 with an opcode other than CONSTRUCT. -/
  | psetOnOtherOpcode
  /-- PLEN does not fit the opcode (R85). -/
  | wrongLength
  /-- CONSTRUCT whose KEYLEN exceeds its payload. -/
  | keylenPastEnd
deriving DecidableEq, Repr

/-- The header word h = be(p[0:4]) (R81). -/
def headerOf (p : Bytes) : Word32 := BitVec.ofNat 32 (be (slice p 0 4))

/-- The argument word ARG = be(p[4:12]), zero-extended (R82). -/
def argOf (p : Bytes) : Nat := be (slice p 4 12)

/-- The shape checks and operands of each opcode (R85, R86). -/
def decodeBody (op : Opcode) (ps : ParamSet) (p : Bytes) : Except DecodeReject Instr :=
  match op with
  | .construct =>
    if p.length < 12 then .error .wrongLength
    else if p.length - 12 < argOf p then .error .keylenPastEnd
    else .ok (.construct ps (slice p 12 (12 + argOf p)) (p.drop (12 + argOf p)))
  | .update => .ok (.update (p.drop 4))
  | .finalizeFixed =>
    if p.length ≠ 12 then .error .wrongLength else .ok (.finalizeFixed (argOf p))
  | .finalizeXof =>
    if p.length ≠ 4 then .error .wrongLength else .ok .finalizeXof
  | .read =>
    if p.length ≠ 12 then .error .wrongLength else .ok (.read (argOf p))

/-- Decode (R86): total on every byte string, and blind to the state. -/
def decode (p : Bytes) : Except DecodeReject Instr :=
  if p.length < 4 then .error .shortPacket
  else if (headerOf p).extractLsb' 9 23 ≠ 0 then .error .reservedBits
  else
    match opcodeOf ((headerOf p).extractLsb' 0 8) with
    | none => .error .unassignedOpcode
    | some op =>
      if (headerOf p).extractLsb' 8 1 ≠ 0 ∧ op ≠ .construct then .error .psetOnOtherOpcode
      else decodeBody op (ParamSet.ofBit ((headerOf p).extractLsb' 8 1)) p

/-- The header word the assembler writes: OPC in [7:0], PSET in [8], RSVD zero (R81, R89). -/
def headerWord (op : Opcode) (psetBit : BitVec 1) : Word32 :=
  op.code.zeroExtend 32 ||| (psetBit.zeroExtend 32 <<< 8)

/-- The packet of a command (R89): header, then ARG where the opcode has one, then the payload. -/
def encode : Instr → Bytes
  | .construct ps key custom =>
    beBytes 4 (headerWord .construct ps.bit).toNat ++ beBytes 8 key.length ++ key ++ custom
  | .update data => beBytes 4 (headerWord .update 0).toNat ++ data
  | .finalizeFixed len => beBytes 4 (headerWord .finalizeFixed 0).toNat ++ beBytes 8 len
  | .finalizeXof => beBytes 4 (headerWord .finalizeXof 0).toNat
  | .read count => beBytes 4 (headerWord .read 0).toNat ++ beBytes 8 count

/-- Whether the layout of R80 gives this opcode byte an ARG word. -/
def hasArg (opc : Nat) : Bool := opc == 1 || opc == 3 || opc == 5

/-- The packet that nbits bits of value w stand for, bit 0 being the least significant bit of the header word: the header big-endian, then
the 64-bit ARG (bits 95..32) big-endian where the opcode has one, then the payload byte by byte; PLEN is nbits/8, but no less than the shortest
packet of the opcode, and every bit above nbits is 0 (R63, R80, log 2). -/
def tablePacket (nbits w : Nat) : Bytes :=
  let withArg := hasArg (w % 256)
  let fixedPart := if withArg then 12 else 4
  let payloadLen := nbits / 8 - fixedPart
  beBytes 4 (w % 2 ^ 32)
    ++ (if withArg then beBytes 8 (w / 2 ^ 32 % 2 ^ 64) else [])
    ++ (List.range payloadLen).map fun i => BitVec.ofNat 8 (w / 2 ^ (8 * (fixedPart + i)) % 256)

/-- The command the decoder reads from a word of spec/opcode_table.json; none where it rejects the packet. -/
def decodeTableWord (nbits w : Nat) : Option Instr := (decode (tablePacket nbits w)).toOption

end Sys2Proof
end

