-- ==== Sys2Proof/Machine/ByteEncoding.lean ====
section
/-! DEFINITION. The byte encodings of 40_byte_encoding.md rules R110 to R117: pure functions, exact on natural numbers (R122, R123). -/

namespace Sys2Proof.Machine

/-- The number of binary digits of x without leading zeros; bitlen(0) = 0 (R7). -/
def bitlen (x : Nat) : Nat := if x = 0 then 0 else x.log2 + 1

/-- nbytes(x) = max(1, ceil(bitlen(x)/8)) (R111). -/
def nbytes (x : Nat) : Nat := max 1 ((bitlen x + 7) / 8)

/-- enc_b(x), the minimal big-endian byte encoding (R110). -/
def encB (x : Nat) : Bytes := beBytes (nbytes x) x

/-- left_encode(x) = [nbytes(x)] ++ enc_b(x) (R112). -/
def leftEncode (x : Nat) : Bytes := BitVec.ofNat 8 (nbytes x) :: encB x

/-- right_encode(x) = enc_b(x) ++ [nbytes(x)] (R113). -/
def rightEncode (x : Nat) : Bytes := encB x ++ [BitVec.ofNat 8 (nbytes x)]

/-- bit_length(S) = 8·|S| (R114). -/
def bitLength (s : Bytes) : Nat := 8 * s.length

/-- encode_string(S) = left_encode(8·|S|) ++ S (R115). -/
def encodeString (s : Bytes) : Bytes := leftEncode (bitLength s) ++ s

/-- 0^n, n zero bytes (R7). -/
def zeros (n : Nat) : Bytes := List.replicate n 0

/-- bytepad(X, w): left_encode(w) ++ X, zero-padded to a multiple of w (R116). -/
def bytepad (x : Bytes) (w : Nat) : Bytes :=
  let z := leftEncode w ++ x
  z ++ zeros ((w - z.length % w) % w)

/-- Encodable(x, lim): nbytes(x) ≤ lim (R117). -/
def encodable (x lim : Nat) : Bool := decide (nbytes x ≤ lim)

end Sys2Proof.Machine
end

