-- ==== Sys2Proof/Machine/Operands.lean ====
section
/-! DEFINITION. The constants of a parameter set (00_scope.md rule R4), the strings the block absorbs besides the message (40_byte_encoding.md rules R119, R120), and the splitting of a stream into blocks. -/

namespace Sys2Proof.Machine

/-- R(pset), the rate in bytes (R4). -/
def rate : ParamSet → Nat
  | .kmac128 => 168
  | .kmac256 => 136

/-- D(pset), the default output length in bytes (R4). -/
def defaultLen : ParamSet → Nat
  | .kmac128 => 32
  | .kmac256 => 64

/-- The domain label "KMAC" (R4, R145). -/
def domainLabel : Bytes := [0x4B, 0x4D, 0x41, 0x43]

/-- KB(K, p) = bytepad(encode_string(K), R(p)) (R119). -/
def keyBlock (key : Bytes) (ps : ParamSet) : Bytes := bytepad (encodeString key) (rate ps)

/-- SUF(Fixed L) = right_encode(8·L) (R120). -/
def fixedSuffix (len : Nat) : Bytes := rightEncode (8 * len)

/-- SUF(Extendable) = right_encode(0) (R120). -/
def xofSuffix : Bytes := rightEncode 0

/-- The blocks t[i·r : (i+1)·r] for i in 0..(|t| div r)-1 (R140, R150, R170). -/
def fullBlocks (r : Nat) (t : Bytes) : List Bytes :=
  (List.range (t.length / r)).map fun i => slice t (i * r) ((i + 1) * r)

/-- What the full blocks leave over: t[(|t| div r)·r :] (R150, R170). -/
def leftover (r : Nat) (t : Bytes) : Bytes := t.drop (t.length / r * r)

/-- Z[a:b] of an output stream Z (R225). -/
def streamSlice (z : Nat → Byte) (a b : Nat) : Bytes := (List.range (b - a)).map fun i => z (a + i)

end Sys2Proof.Machine
end

