-- ==== Sys2Proof/Machine/State.lean ====
section
/-! DEFINITION. The state of the block: every element of 10_state.md rule R20, the observations of its four interfaces (20_memory.md rule R60), what the host does next and the fixed configuration; and its value right after reset (70_reset_and_hazards.md rule R250). -/

namespace Sys2Proof.Machine

/-- The lifecycle phase, st.phase (R21). -/
inductive Phase where
  | unconstructed | absorbing | finalizedFixed | squeezing
deriving DecidableEq, Repr

/-- The error codes (R211). The reserved codes 6..15 are never written (93 I18), so they have no constructor. -/
inductive ErrCode where
  | ok | invalidLength | sequence | illegal | badOutlen | keyTooShort
deriving DecidableEq, Repr

/-- st.sp, the block's record (S, A, j) of the collaborator instance it drives (R26). -/
structure SpRec where
  /-- S: the customization passed to SpConstruct. -/
  custom : Bytes
  /-- A: every byte string passed to SpAbsorb since, concatenated in call order. -/
  absorbed : Bytes
  /-- j: the number of SpSqueeze calls since. -/
  squeezes : Nat
deriving DecidableEq, Repr

/-- What the host can do to the block, between two commands (R254, log 1). -/
inductive HostInput where
  /-- Send one packet on the command channel. -/
  | packet (p : Bytes)
  /-- Read the status port (R29). -/
  | readStatus
  /-- Assert hardware reset (R251). -/
  | reset
deriving DecidableEq, Repr

/-- The machine. `phase` to `sticky` are the elements of R20; st.fill is derived from `buf`, as R24 allows. -/
structure State where
  /-- st.phase (R21). -/
  phase : Phase
  /-- st.pset (R22). -/
  pset : ParamSet
  /-- st.buf, the absorption buffer (R23). -/
  buf : Bytes
  /-- st.pend, the Reader's pending bytes (R25). -/
  pend : Bytes
  /-- st.sp, the collaborator record (R26). -/
  sp : Option SpRec
  /-- st.err (R30). -/
  err : ErrCode
  /-- st.sticky (R31). -/
  sticky : Bool
  /-- The output channel history (R27, R251). -/
  out : Bytes
  /-- How many bytes of `out` were emitted before the last hardware reset (log 7). -/
  outMark : Nat
  /-- The calls made on the collaborator port, oldest first (log 8). -/
  calls : List SpCall
  /-- The values the status port has returned, oldest first (R29, log 9). -/
  statusReads : List Word32
  /-- What the host does next, oldest first (R68, log 1). -/
  inputs : List HostInput
  /-- The configuration, the collaborator on the port among it, which nothing changes (R253). -/
  cfg : Params
deriving DecidableEq, Repr

/-- Why the machine can stop. -/
inductive Fault where
  /-- Raised by UPDATE, FINALIZE_FIXED, FINALIZE_XOF and READ in their legal phase when st.sp is none, so that there is no collaborator
  instance to call. No reachable state is such a state (R35), and 93 I4 gives it no behaviour but "stuck". Safe (log 6). -/
  | noCollaborator
deriving DecidableEq, Repr

/-- Why an instruction can have no meaning. -/
inductive Refusal where
  /-- Raised by a dispatch arm that has no meaning yet. Safe. No arm of this model raises it. -/
  | notModelled (mnemonic : String)
deriving DecidableEq, Repr

/-- The machine right after reset (R250), with no output, no call and no status read recorded (logs 7, 8, 9) and no input waiting (R252, log 1). -/
def State.reset : State where
  phase := .unconstructed
  pset := .kmac128
  buf := []
  pend := []
  sp := none
  err := .ok
  sticky := false
  out := []
  outMark := 0
  calls := []
  statusReads := []
  inputs := []
  cfg := Config.atReset

end Sys2Proof.Machine
end

