-- ==== Sys2Proof/Machine/Flags.lean ====
section
/-! DEFINITION. The numbers of the phases and error codes, the STATUS word (10_state.md rules R21, R24, R28, 60_exceptions.md rule R211) and the views of the buffers' storage. -/

namespace Sys2Proof.Machine

/-- The 2-bit number of a phase (R21). -/
def Phase.code : Phase → BitVec 2
  | .unconstructed => 0
  | .absorbing => 1
  | .finalizedFixed => 2
  | .squeezing => 3

/-- The 4-bit number of an error code (R211). -/
def ErrCode.code : ErrCode → BitVec 4
  | .ok => 0
  | .invalidLength => 1
  | .sequence => 2
  | .illegal => 3
  | .badOutlen => 4
  | .keyTooShort => 5

/-- STATUS = zext_32(st.phase) | (st.pset << 2) | (st.err << 8) | (st.sticky << 12) (R28). -/
def State.status (s : State) : Word32 :=
  s.phase.code.zeroExtend 32
    ||| (s.pset.bit.zeroExtend 32 <<< 2)
    ||| (s.err.code.zeroExtend 32 <<< 8)
    ||| ((BitVec.ofBool s.sticky).zeroExtend 32 <<< 12)

/-- st.fill, the 8-bit fill cursor, always |st.buf| (R24). -/
def State.fill (s : State) : BitVec 8 := BitVec.ofNat 8 s.buf.length

/-- The 168 storage bytes of a buffer that holds b: its bytes, then zeros (R23, R25, R250, 92 D20, log 10). -/
def storageOf (b : Bytes) : Bytes := b ++ zeros (rate .kmac128 - b.length)

/-- The storage of st.buf (R23). -/
def State.bufStorage (s : State) : Bytes := storageOf s.buf

/-- The storage of st.pend (R25). -/
def State.pendStorage (s : State) : Bytes := storageOf s.pend

/-- The bytes emitted since the last hardware reset (R27, log 7). -/
def State.outSinceReset (s : State) : Bytes := s.out.drop s.outMark

end Sys2Proof.Machine
end

