-- ==== Sys2Proof/Machine/Ops.lean ====
section
/-! DEFINITION. The shared operations: rejection (60_exceptions.md rule R210) and completion of a command, the collaborator port (rules R224, R225), the final absorption (42_finalize.md rule R170), the Reader's loop (43_xof_reader.md rule R190), and the host's interface: status read, hardware reset, taking the next input. -/

namespace Sys2Proof.Machine

/-- raise Reject(code): writes st.err and st.sticky and nothing else (R210). The block has no return from it (R220). -/
def State.reject (c : ErrCode) (s : State) : State := { s with err := c, sticky := true }

/-- st.err <- OK, the last line of every command that completes (R30). -/
def State.complete (s : State) : State := { s with err := .ok }

/-- An open collaborator instance: its record, the calls made so far, and the collaborator that answers them. -/
structure Port where
  inst : SpRec
  calls : List SpCall
  collab : Collaborator
deriving DecidableEq, Repr

/-- SpConstruct("KMAC", S, pset): a fresh instance that has absorbed and squeezed nothing (R142, R145, R224). -/
def Port.opened (ps : ParamSet) (custom : Bytes) (calls : List SpCall) (collab : Collaborator) : Port where
  inst := { custom := custom, absorbed := [], squeezes := 0 }
  calls := calls ++ [.construct domainLabel custom ps]
  collab := collab

/-- SpAbsorb(b) (R26, R224). -/
def Port.absorb (q : Port) (b : Bytes) : Port where
  inst := { q.inst with absorbed := q.inst.absorbed ++ b }
  calls := q.calls ++ [.absorb b]
  collab := q.collab

/-- One SpAbsorb call per byte string of the list, in order. -/
def Port.absorbAll (q : Port) (bs : List Bytes) : Port := bs.foldl Port.absorb q

/-- Z = SpOut(pset, S, A) of an instance (R225). -/
def SpRec.stream (ps : ParamSet) (p : SpRec) : Nat → Byte := Config.spOut ps p.custom p.absorbed

/-- The answer R225 gives to SpSqueeze number j: Z[j·R : (j+1)·R]. -/
def SpRec.answer (ps : ParamSet) (p : SpRec) : Bytes :=
  streamSlice (p.stream ps) (p.squeezes * rate ps) ((p.squeezes + 1) * rate ps)

/-- The R bytes the collaborator answers to the next SpSqueeze: those of R225, or, if it departs from R225, free bytes (R226, log 16). -/
def Port.answer (ps : ParamSet) (q : Port) : Bytes :=
  match q.collab with
  | .meetsContract => q.inst.answer ps
  | .departs => (List.range (rate ps)).map (Config.departedByte q.calls)

/-- SpSqueeze(): the instance after the call; the answer is `q.answer ps`, which the block takes unchecked (R224, R226). -/
def Port.squeeze (ps : ParamSet) (q : Port) : Port where
  inst := { q.inst with squeezes := q.inst.squeezes + 1 }
  calls := q.calls ++ [.squeeze (q.answer ps)]
  collab := q.collab

/-- Writes an instance back into the state: st.sp and the history of calls. -/
def State.putPort (q : Port) (s : State) : State := { s with sp := some q.inst, calls := q.calls }

/-- Runs a command's body on the collaborator instance. With none to call there is no behaviour: stuck (93 I4, log 6). -/
def withPort (s : State) (body : Port → State) : Host.Outcome State Fault Refusal :=
  match s.sp with
  | none => .fault .noCollaborator
  | some p => .next (body { inst := p, calls := s.calls, collab := s.cfg.collab })

/-- The collaborator calls of FinalAbsorb (R170): the full blocks of t = st.buf ++ suf, then one partial block if anything is left. -/
def finalPieces (r : Nat) (t : Bytes) : List Bytes :=
  fullBlocks r t ++ (if t.length % r ≠ 0 then [leftover r t] else [])

/-- FinalAbsorb(suf) on the collaborator port (R170). -/
def Port.finalAbsorb (r : Nat) (buf suf : Bytes) (q : Port) : Port :=
  q.absorbAll (finalPieces r (buf ++ suf))

/-- The loop 'while |o| < L: o <- o ++ SpSqueeze()' of FINALIZE_FIXED (R171). Each turn adds R ≥ 1 bytes, so L turns always suffice as fuel. -/
def squeezeUntil (ps : ParamSet) (len : Nat) : Nat → Bytes → Port → Bytes × Port
  | 0, o, q => (o, q)
  | fuel + 1, o, q =>
    if o.length < len then squeezeUntil ps len fuel (o ++ q.answer ps) (q.squeeze ps)
    else (o, q)

/-- What READ's loop works on: st.pend, the output channel and the collaborator instance. -/
structure Reader where
  pend : Bytes
  out : Bytes
  port : Port
deriving DecidableEq, Repr

/-- 'if st.pend = [] then st.pend <- SpSqueeze()' (R190). -/
def Reader.refill (ps : ParamSet) (x : Reader) : Reader :=
  match x.pend with
  | [] => { x with pend := x.port.answer ps, port := x.port.squeeze ps }
  | _ :: _ => x

/-- 'Emit(st.pend[0]); st.pend <- st.pend[1:]' (R190). -/
def Reader.emitOne (x : Reader) : Reader :=
  { x with out := x.out ++ x.pend.take 1, pend := x.pend.drop 1 }

/-- READ's loop, n times (R190). -/
def Reader.emitMany (ps : ParamSet) : Nat → Reader → Reader
  | 0, x => x
  | n + 1, x => Reader.emitMany ps n (x.refill ps).emitOne

/-- A read of the status port: returns STATUS and has no side effect on the block (R29); the value is recorded (log 9). -/
def State.recordStatusRead (s : State) : State := { s with statusReads := s.statusReads ++ [s.status] }

/-- Hardware reset between two commands: the values of R250; the histories, the host's inputs and the configuration stay, and no
collaborator call is made (R251, R253). -/
def State.hardReset (s : State) : State :=
  { State.reset with
    out := s.out, outMark := s.out.length, calls := s.calls, statusReads := s.statusReads,
    inputs := s.inputs, cfg := s.cfg }

/-- Takes the oldest input of the host; an input is taken once and never read again (R68, R71). -/
def State.takeInput (s : State) : Option (HostInput × State) :=
  match s.inputs with
  | [] => none
  | x :: rest => some (x, { s with inputs := rest })

/-- A packet: Decode first, then the command; a packet that Decode rejects reports ILLEGAL whatever the reason (R86, R214, R217). -/
def deliver (run : Instr → State → Host.Outcome State Fault Refusal) (p : Bytes) (s : State) :
    Host.Outcome State Fault Refusal :=
  match decode p with
  | .ok i => run i s
  | .error _ => .next (s.reject .illegal)

/-- One interaction of the host with the block (R254). -/
def perform (run : Instr → State → Host.Outcome State Fault Refusal) (x : HostInput) (s : State) :
    Host.Outcome State Fault Refusal :=
  match x with
  | .packet p => deliver run p s
  | .readStatus => .next s.recordStatusRead
  | .reset => .next s.hardReset

end Sys2Proof.Machine
end

