-- ==== Sys2Proof/Machine/Absorb.lean ====
section
/-! DEFINITION. CONSTRUCT and UPDATE (41_construct_update.md). -/

namespace Sys2Proof.Machine

/-- The first check of CONSTRUCT that fails, in the order of R141. -/
def constructFailure (c : Params) (key custom : Bytes) : Option ErrCode :=
  if ¬ encodable (bitLength key) c.encLimit then some .invalidLength
  else if ¬ encodable (bitLength custom) c.encLimit then some .invalidLength
  else if key.length < c.minKeyBytes then some .keyTooShort
  else none

/-- The effect of an accepted CONSTRUCT (R140, R142, R144): a fresh collaborator instance that absorbs the key block in R-byte calls; the
previous instance's buffers are dropped. -/
def beginInstance (ps : ParamSet) (key custom : Bytes) (s : State) : State :=
  let port := (Port.opened ps custom s.calls s.cfg.collab).absorbAll (fullBlocks (rate ps) (keyBlock key ps))
  ({ s with pset := ps, phase := .absorbing, buf := [], pend := [] }.putPort port).complete

/-- CONSTRUCT (R140). -/
def execConstruct (ps : ParamSet) (key custom : Bytes) (s : State) : Host.Outcome State Fault Refusal :=
  .next (match constructFailure s.cfg key custom with
    | some c => s.reject c
    | none => beginInstance ps key custom s)

/-- UPDATE (R150). -/
def execUpdate (data : Bytes) (s : State) : Host.Outcome State Fault Refusal :=
  if s.phase ≠ .absorbing then .next (s.reject .sequence)
  else withPort s fun q =>
    let t := s.buf ++ data
    ({ s with buf := leftover (rate s.pset) t }.putPort (q.absorbAll (fullBlocks (rate s.pset) t))).complete

end Sys2Proof.Machine
end

