-- ==== Sys2Proof/Machine/Finalize.lean ====
section
/-! DEFINITION. FINALIZE_FIXED and FINALIZE_XOF (42_finalize.md). -/

namespace Sys2Proof.Machine

/-- The effect of an accepted FINALIZE_FIXED (R171): FinalAbsorb, then squeezes until L bytes are there, which are emitted; the rest is discarded. -/
def fixedOutput (len : Nat) (s : State) (q : Port) : State :=
  let absorbed := q.finalAbsorb (rate s.pset) s.buf (fixedSuffix len)
  let o := squeezeUntil s.pset len len [] absorbed
  ({ s with buf := [], out := s.out ++ o.1.take len, pend := [], phase := .finalizedFixed }.putPort o.2).complete

/-- FINALIZE_FIXED (R171): SEQUENCE before BAD_OUTLEN (R217). -/
def execFinalizeFixed (len : Nat) (s : State) : Host.Outcome State Fault Refusal :=
  if s.phase ≠ .absorbing then .next (s.reject .sequence)
  else if len = 0 then .next (s.reject .badOutlen)
  else withPort s (fixedOutput len s)

/-- FINALIZE_XOF (R172): nothing is squeezed and nothing emitted. -/
def execFinalizeXof (s : State) : Host.Outcome State Fault Refusal :=
  if s.phase ≠ .absorbing then .next (s.reject .sequence)
  else withPort s fun q =>
    ({ s with buf := [], pend := [], phase := .squeezing }.putPort
      (q.finalAbsorb (rate s.pset) s.buf xofSuffix)).complete

end Sys2Proof.Machine
end

