-- ==== Sys2Proof/Machine/XofReader.lean ====
section
/-! DEFINITION. READ (43_xof_reader.md). -/

namespace Sys2Proof.Machine

/-- READ (R190). -/
def execRead (count : Nat) (s : State) : Host.Outcome State Fault Refusal :=
  if s.phase ≠ .squeezing then .next (s.reject .sequence)
  else withPort s fun q =>
    let x := Reader.emitMany s.pset count { pend := s.pend, out := s.out, port := q }
    ({ s with pend := x.pend, out := x.out }.putPort x.port).complete

end Sys2Proof.Machine
end

