-- ==== Sys2Proof/Machine/Dispatch.lean ====
section
/-! DEFINITION. The meaning of every command, one arm per constructor of Instr. -/

namespace Sys2Proof.Machine

def exec (i : Instr) (s : State) : Host.Outcome State Fault Refusal :=
  match i with
  | .construct ps key custom => Sys2Proof.Machine.execConstruct ps key custom s
  | .update data => Sys2Proof.Machine.execUpdate data s
  | .finalizeFixed len => Sys2Proof.Machine.execFinalizeFixed len s
  | .finalizeXof => Sys2Proof.Machine.execFinalizeXof s
  | .read count => Sys2Proof.Machine.execRead count s

end Sys2Proof.Machine
end

