-- ==== Sys2Proof/Machine/Step.lean ====
section
/-! DEFINITION. One step: the block takes the host's next input (20_memory.md rule R68); with none waiting it waits (70_reset_and_hazards.md rule R252). -/

namespace Sys2Proof.Machine

/-- One step of the machine (R66, R68). -/
def step (s : State) : Host.Outcome State Fault Refusal :=
  match s.takeInput with
  | none => .next s
  | some (x, s') => perform exec x s'

/-- s with the packet that a word of the opcode table stands for waiting as the host's next input (log 2). -/
def State.withFetchWord (s : State) (nbits w : Nat) : State :=
  { s with inputs := .packet (tablePacket nbits w) :: s.inputs }

end Sys2Proof.Machine
end

