-- ==== Sys2Proof/Machine/Assembler.lean ====
section
/-! DEFINITION. The assembly syntax and the pseudo-commands of 30_encoding.md rules R89 and R90: a line of text becomes a line of the assembler, and lines become packets. The block itself never sees them. -/

namespace Sys2Proof.Machine

/-- One line of an assembly program: a command, or a pseudo-command of R90. -/
inductive AsmLine where
  | command (i : Instr)
  /-- FINALIZE_FIXED_DEFAULT. -/
  | fixedDefault
  /-- KMAC, without and with `len=`. -/
  | kmac (ps : ParamSet) (key custom msg : Bytes) (len : Option Nat)
  /-- KMACXOF. -/
  | kmacXof (ps : ParamSet) (key custom msg : Bytes) (count : Nat)
deriving DecidableEq, Repr

/-- The parameter set FINALIZE_FIXED_DEFAULT takes after a command, given the one before it: that of the latest CONSTRUCT in the text. DESIGN CHOICE (log 17):
R90 takes it from the CONSTRUCT that began the instance, and the assembler does not know whether the block will reject a CONSTRUCT. -/
def paramSetAfter (cur : Option ParamSet) : Instr → Option ParamSet
  | .construct ps _ _ => some ps
  | .update _ => cur
  | .finalizeFixed _ => cur
  | .finalizeXof => cur
  | .read _ => cur

/-- The commands a line expands to (R90). FINALIZE_FIXED_DEFAULT needs a CONSTRUCT before it to take the parameter set from. -/
def AsmLine.expand (cur : Option ParamSet) : AsmLine → Option (List Instr)
  | .command i => some [i]
  | .fixedDefault => cur.map fun ps => [.finalizeFixed (defaultLen ps)]
  | .kmac ps key custom msg len =>
    some [.construct ps key custom, .update msg, .finalizeFixed (len.getD (defaultLen ps))]
  | .kmacXof ps key custom msg count =>
    some [.construct ps key custom, .update msg, .finalizeXof, .read count]

/-- The packets of an assembly program, in order (R89, R90). -/
def assemble : Option ParamSet → List AsmLine → Option (List Bytes)
  | _, [] => some []
  | cur, line :: rest =>
    match line.expand cur with
    | none => none
    | some is => (assemble (is.foldl paramSetAfter cur) rest).map fun ps => is.map encode ++ ps

/-- Drops leading spaces and tabs. -/
def skipSpaces : List Char → List Char
  | [] => []
  | c :: cs => if c = ' ' ∨ c = '\t' then skipSpaces cs else c :: cs

/-- The value of a hexadecimal digit, of either case (log 15). -/
def hexDigit (c : Char) : Option Nat :=
  if '0' ≤ c ∧ c ≤ '9' then some (c.toNat - 48)
  else if 'A' ≤ c ∧ c ≤ 'F' then some (c.toNat - 55)
  else if 'a' ≤ c ∧ c ≤ 'f' then some (c.toNat - 87)
  else none

/-- The inside of `x"..."` and its closing quote: hexadecimal pairs that may be separated by spaces (R89). -/
def hexBody : List Char → Option (Bytes × List Char)
  | [] => none
  | [c] => if c = '"' then some ([], []) else none
  | a :: b :: cs =>
    if a = '"' then some ([], b :: cs)
    else if a = ' ' then hexBody (b :: cs)
    else
      match hexDigit a, hexDigit b, hexBody cs with
      | some x, some y, some (bs, rest) => some (BitVec.ofNat 8 (16 * x + y) :: bs, rest)
      | _, _, _ => none

/-- The inside of `"..."` and its closing quote: ASCII characters (R89). -/
def asciiBody : List Char → Option (Bytes × List Char)
  | [] => none
  | c :: cs =>
    if c = '"' then some ([], cs)
    else if c.toNat < 128 then
      (asciiBody cs).map fun x => (BitVec.ofNat 8 c.toNat :: x.1, x.2)
    else none

/-- `<bytes>` (R89). -/
def bytesLiteral : List Char → Option (Bytes × List Char)
  | 'x' :: '"' :: cs => hexBody cs
  | '"' :: cs => asciiBody cs
  | _ => none

/-- The value of a run of digits to a base; none where a character is no digit of it. -/
def digitsValue (base : Nat) (ds : List Char) : Option Nat :=
  ds.foldl (fun acc c =>
    match acc, hexDigit c with
    | some n, some d => if d < base then some (n * base + d) else none
    | _, _ => none) (some 0)

/-- Whether a character can stand in a word or a number. -/
def isWordChar (c : Char) : Bool := c.isAlphanum || c == '_'

/-- `<L>` and `<n>`: decimal, or hexadecimal after `0x`, in 0..2^64-1 (R89). -/
def numberLiteral (cs : List Char) : Option (Nat × List Char) :=
  let w := cs.takeWhile isWordChar
  let v :=
    match w with
    | [] => none
    | ['0', 'x'] => none
    | '0' :: 'x' :: ds => digitsValue 16 ds
    | ds => digitsValue 10 ds
  match v with
  | some n => if n < 2 ^ 64 then some (n, cs.dropWhile isWordChar) else none
  | none => none

/-- Drops a fixed text from the front, and the spaces before it. -/
def expect (w : List Char) (cs : List Char) : Option (List Char) :=
  let cs := skipSpaces cs
  if w.isPrefixOf cs then some (cs.drop w.length) else none

/-- `, name=<value>` (R89, R90). -/
def namedOperand {α : Type} (value : List Char → Option (α × List Char)) (name : List Char) (cs : List Char) :
    Option (α × List Char) := do
  let cs ← expect [','] cs
  let cs ← expect name cs
  let cs ← expect ['='] cs
  value (skipSpaces cs)

/-- `KMAC128` or `KMAC256` (R89). -/
def paramSetWord (cs : List Char) : Option (ParamSet × List Char) :=
  let cs := skipSpaces cs
  let w := cs.takeWhile isWordChar
  let rest := cs.dropWhile isWordChar
  if w = "KMAC128".toList then some (.kmac128, rest)
  else if w = "KMAC256".toList then some (.kmac256, rest)
  else none

/-- After the operands only spaces and a comment may stand; `;` starts a comment (R89). -/
def endOfLine (line : AsmLine) (cs : List Char) : Option AsmLine :=
  match skipSpaces cs with
  | [] => some line
  | c :: _ => if c = ';' then some line else none

/-- The operands that follow a mnemonic (R89, R90). DESIGN CHOICE (log 15): between a mnemonic and its operand there may be any number of spaces and tabs, and none where
the operand starts with a quotation mark. -/
def parseOperands (mnemonic cs : List Char) : Option AsmLine :=
  if mnemonic = "CONSTRUCT".toList then do
    let (ps, cs) ← paramSetWord cs
    let (key, cs) ← namedOperand bytesLiteral "key".toList cs
    let (custom, cs) ← namedOperand bytesLiteral "custom".toList cs
    endOfLine (.command (.construct ps key custom)) cs
  else if mnemonic = "UPDATE".toList then do
    let (data, cs) ← bytesLiteral (skipSpaces cs)
    endOfLine (.command (.update data)) cs
  else if mnemonic = "FINALIZE_FIXED".toList then do
    let (len, cs) ← numberLiteral (skipSpaces cs)
    endOfLine (.command (.finalizeFixed len)) cs
  else if mnemonic = "FINALIZE_XOF".toList then endOfLine (.command .finalizeXof) cs
  else if mnemonic = "READ".toList then do
    let (count, cs) ← numberLiteral (skipSpaces cs)
    endOfLine (.command (.read count)) cs
  else if mnemonic = "FINALIZE_FIXED_DEFAULT".toList then endOfLine .fixedDefault cs
  else if mnemonic = "KMAC".toList then do
    let (ps, cs) ← paramSetWord cs
    let (key, cs) ← namedOperand bytesLiteral "key".toList cs
    let (custom, cs) ← namedOperand bytesLiteral "custom".toList cs
    let (msg, cs) ← namedOperand bytesLiteral "msg".toList cs
    match namedOperand numberLiteral "len".toList cs with
    | some (len, cs) => endOfLine (.kmac ps key custom msg (some len)) cs
    | none => endOfLine (.kmac ps key custom msg none) cs
  else if mnemonic = "KMACXOF".toList then do
    let (ps, cs) ← paramSetWord cs
    let (key, cs) ← namedOperand bytesLiteral "key".toList cs
    let (custom, cs) ← namedOperand bytesLiteral "custom".toList cs
    let (msg, cs) ← namedOperand bytesLiteral "msg".toList cs
    let (count, cs) ← namedOperand numberLiteral "read".toList cs
    endOfLine (.kmacXof ps key custom msg count) cs
  else none

/-- One line of assembly text that holds a command or a pseudo-command (R89, R90). -/
def parseLine (text : List Char) : Option AsmLine :=
  let cs := skipSpaces text
  parseOperands (cs.takeWhile isWordChar) (cs.dropWhile isWordChar)

/-- Whether a line holds nothing but spaces and a comment (R89). -/
def isBlankLine (text : List Char) : Bool :=
  match skipSpaces text with
  | [] => true
  | c :: _ => c == ';'

/-- The packets of an assembly text, line by line, starting with no instance (R89, R90). -/
def assembleText (lines : List (List Char)) : Option (List Bytes) := do
  let parsed ← (lines.filter fun l => !isBlankLine l).mapM parseLine
  assemble none parsed

end Sys2Proof.Machine
end

