-- ==== Sys2Proof/Safety.lean ====
section
/-! DEFINITION. The terms claims are stated in: the invariant of each phase (10_state.md rule R35), the legal history of the collaborator port (60_exceptions.md rules R224, R225), the code a packet reports (rule R217), and running a sequence of commands. -/

namespace Sys2Proof.Machine

/-- The invariant of R35 for the phase, with what R22, R25, R64, R173 and R192 add to it: which stream the instance has absorbed, and, where the
collaborator meets R225, that the bytes emitted since the finalize are the first bytes of its output stream Z and st.pend the next ones. -/
def PhaseInv (s : State) : Prop :=
  match s.phase with
  | .unconstructed => s.buf = [] ∧ s.pend = [] ∧ s.sp = none ∧ s.pset = .kmac128 ∧ s.outSinceReset = []
  | .absorbing =>
    s.buf.length ≤ rate s.pset - 1 ∧ s.pend = [] ∧
      ∃ p key msg, s.sp = some p ∧ p.squeezes = 0 ∧ p.absorbed = keyBlock key s.pset ++ msg ∧
        p.absorbed.length % rate s.pset = 0
  | .finalizedFixed =>
    s.buf = [] ∧ s.pend = [] ∧
      ∃ p key msg len, s.sp = some p ∧ 1 ≤ len ∧ p.absorbed = keyBlock key s.pset ++ msg ++ fixedSuffix len ∧
        p.squeezes = (len + rate s.pset - 1) / rate s.pset ∧
        (s.cfg.collab = .meetsContract → streamSlice (p.stream s.pset) 0 len <:+ s.outSinceReset)
  | .squeezing =>
    s.buf = [] ∧ s.pend.length ≤ rate s.pset - 1 ∧
      ∃ p key msg, s.sp = some p ∧ p.absorbed = keyBlock key s.pset ++ msg ++ xofSuffix ∧
        s.pend.length ≤ p.squeezes * rate s.pset ∧
        (s.cfg.collab = .meetsContract →
          s.pend = streamSlice (p.stream s.pset) (p.squeezes * rate s.pset - s.pend.length) (p.squeezes * rate s.pset) ∧
          streamSlice (p.stream s.pset) 0 (p.squeezes * rate s.pset - s.pend.length) <:+ s.outSinceReset)

/-- What holds between commands: the invariant of the phase (R35), ENC_LIMIT in its range (R5), STICKY set whenever ERR is not OK (R31), and
the reset mark inside the history. -/
structure Inv (s : State) : Prop where
  phaseInv : PhaseInv s
  cfgInRange : s.cfg.inRange
  stickyOfErr : s.err ≠ .ok → s.sticky = true
  markInside : s.outMark ≤ s.out.length

/-- What the history of calls says of the collaborator: no instance yet, a live instance with its parameter set and record, or a history that
breaks the order, the arguments or the answer width of R224, or the answers a collaborator that meets R225 gives. -/
inductive PortTrace where
  | fresh
  | live (ps : ParamSet) (inst : SpRec)
  | broken
deriving DecidableEq, Repr

/-- One more call (R224): SpConstruct carries the label "KMAC"; SpAbsorb takes 1..R bytes and comes before every SpSqueeze of its instance;
SpSqueeze is answered with R bytes, number j with Z[j·R : (j+1)·R] where the collaborator meets R225. -/
def PortTrace.next (c : Collaborator) : PortTrace → SpCall → PortTrace
  | .broken, _ => .broken
  | .fresh, .construct label custom ps =>
    if label = domainLabel then .live ps { custom := custom, absorbed := [], squeezes := 0 } else .broken
  | .fresh, _ => .broken
  | .live _ _, .construct label custom ps =>
    if label = domainLabel then .live ps { custom := custom, absorbed := [], squeezes := 0 } else .broken
  | .live ps p, .absorb b =>
    if p.squeezes = 0 ∧ 1 ≤ b.length ∧ b.length ≤ rate ps then .live ps { p with absorbed := p.absorbed ++ b }
    else .broken
  | .live ps p, .squeeze a =>
    if a.length = rate ps ∧ (c = .meetsContract → a = p.answer ps) then .live ps { p with squeezes := p.squeezes + 1 } else .broken

/-- The reading of a whole history, oldest call first. -/
def portTrace (c : Collaborator) (calls : List SpCall) : PortTrace := calls.foldl (PortTrace.next c) .fresh

/-- The history of calls is legal, and st.sp records its last instance (R26, R224, R225). -/
def PortOk (s : State) : Prop :=
  portTrace s.cfg.collab s.calls ≠ .broken ∧ ∀ p, s.sp = some p → portTrace s.cfg.collab s.calls = .live s.pset p

/-- The code a command reports, by the order of checks of R217 and R141: the first check that fails, or OK. -/
def commandErr (i : Instr) (s : State) : ErrCode :=
  match i with
  | .construct _ key custom =>
    if s.cfg.encLimit < nbytes (8 * key.length) then .invalidLength
    else if s.cfg.encLimit < nbytes (8 * custom.length) then .invalidLength
    else if key.length < s.cfg.minKeyBytes then .keyTooShort
    else .ok
  | .update _ => if s.phase = .absorbing then .ok else .sequence
  | .finalizeFixed len =>
    if s.phase = .absorbing then (if len = 0 then .badOutlen else .ok) else .sequence
  | .finalizeXof => if s.phase = .absorbing then .ok else .sequence
  | .read _ => if s.phase = .squeezing then .ok else .sequence

/-- The code a packet reports (R217): Decode first, then the command's checks. -/
def packetErr (p : Bytes) (s : State) : ErrCode :=
  match decode p with
  | .error _ => .illegal
  | .ok i => commandErr i s

/-- The phase after a command that completes with OK (R37). -/
def phaseAfter : Instr → Phase
  | .construct _ _ _ => .absorbing
  | .update _ => .absorbing
  | .finalizeFixed _ => .finalizedFixed
  | .finalizeXof => .squeezing
  | .read _ => .squeezing

/-- Runs commands one after another, stopping at the first fault or refusal. -/
def execAll : List Instr → State → Host.Outcome State Fault Refusal
  | [], s => .next s
  | i :: is, s =>
    match exec i s with
    | .next t => execAll is t
    | .fault f => .fault f
    | .refused r => .refused r

/-- CONSTRUCT's checks all pass (R141): both lengths encode within ENC_LIMIT and the key has MIN_KEY_BYTES bytes. -/
abbrev Accepts (s : State) (key custom : Bytes) : Prop :=
  nbytes (8 * key.length) ≤ s.cfg.encLimit ∧ nbytes (8 * custom.length) ≤ s.cfg.encLimit ∧
    s.cfg.minKeyBytes ≤ key.length

end Sys2Proof.Machine
end

