-- ==== Sys2Proof/Certificates/Slice0/Obligations.lean ====
section
/-! DEFINITION. The statements for the provers, each from the numbered rules of spec/ that its docstring names. -/

open Sys2Proof Sys2Proof.Machine

/-! ### Packets and Decode (30_encoding.md) -/

/-- Packets of every shape of R91, written out byte by byte, decode to the commands they stand for. -/
def Obligations.WorkedPacketsDecode : Prop :=
  decode [0, 0, 0, 1, 0, 0, 0, 0, 0, 0, 0, 0] = .ok (.construct .kmac128 [] []) ∧
  decode [0, 0, 1, 1, 0, 0, 0, 0, 0, 0, 0, 2, 0x40, 0x41, 0x4D, 0x79] =
    .ok (.construct .kmac256 [0x40, 0x41] [0x4D, 0x79]) ∧
  decode [0, 0, 0, 2, 0, 1, 2, 3] = .ok (.update [0, 1, 2, 3]) ∧
  decode [0, 0, 0, 2] = .ok (.update []) ∧
  decode [0, 0, 0, 3, 0, 0, 0, 0, 0, 0, 0, 0x20] = .ok (.finalizeFixed 32) ∧
  decode [0, 0, 0, 4] = .ok .finalizeXof ∧
  decode [0, 0, 0, 5, 0, 0, 0, 0, 0, 0, 0, 0xC8] = .ok (.read 200)

/-- R89's packet of a command decodes (R86) to that command, for every command a packet can carry. -/
def Obligations.DecodeOfEncodeIsIdentity : Prop :=
  ∀ i : Instr, i.wf = true → decode (encode i) = .ok i

/-- Every packet the channel can carry (R60) that Decode accepts is the packet R89 gives for the decoded command: one packet, one meaning. -/
def Obligations.EncodeOfDecodeIsIdentity : Prop :=
  ∀ (p : Bytes) (i : Instr), p.length < 2 ^ 64 → decode p = .ok i → encode i = p ∧ i.wf = true

/-- R87: Decode rejects exactly the six listed cases, h being be(p[0:4]), and such a packet is consumed and changes only STATUS. -/
def Obligations.IllegalPacketsAreTheSixCases : Prop :=
  (∀ p : Bytes,
    (∃ e, decode p = .error e) ↔
      p.length < 4 ∨
      be (p.take 4) / 512 ≠ 0 ∨
      (be (p.take 4) % 256 = 0 ∨ 6 ≤ be (p.take 4) % 256) ∨
      (be (p.take 4) / 256 % 2 = 1 ∧ be (p.take 4) % 256 ≠ 1) ∨
      (be (p.take 4) % 256 = 1 ∧ p.length < 12 ∨ be (p.take 4) % 256 = 3 ∧ p.length ≠ 12 ∨
        be (p.take 4) % 256 = 4 ∧ p.length ≠ 4 ∨ be (p.take 4) % 256 = 5 ∧ p.length ≠ 12) ∨
      (be (p.take 4) % 256 = 1 ∧ p.length - 12 < be ((p.drop 4).take 8))) ∧
  (∀ (s : State) (p : Bytes) (rest : List HostInput) (e : DecodeReject),
    s.inputs = .packet p :: rest → decode p = .error e →
      step s = .next { s with inputs := rest, err := .illegal, sticky := true })

/-- R85 and R83: an accepted packet has its row's header under its row's mask, its row's PLEN, and the operands its row names. -/
def Obligations.AcceptedPacketMatchesItsRow : Prop :=
  ∀ (p : Bytes) (i : Instr), decode p = .ok i →
    match i with
    | .construct ps key custom =>
      headerOf p &&& 0xFFFFFEFF = 0x00000001 ∧ (ps = .kmac256 ↔ headerOf p = 0x00000101) ∧ 12 ≤ p.length ∧
        key.length = be ((p.drop 4).take 8) ∧ key.length ≤ p.length - 12 ∧
        key = (p.drop 12).take key.length ∧ custom = p.drop (12 + key.length) ∧
        custom.length = p.length - 12 - key.length
    | .update data =>
      headerOf p &&& 0xFFFFFFFF = 0x00000002 ∧ 4 ≤ p.length ∧ data = p.drop 4 ∧ data.length = p.length - 4
    | .finalizeFixed len =>
      headerOf p &&& 0xFFFFFFFF = 0x00000003 ∧ p.length = 12 ∧ len = be ((p.drop 4).take 8) ∧ len < 2 ^ 64
    | .finalizeXof => headerOf p &&& 0xFFFFFFFF = 0x00000004 ∧ p.length = 4
    | .read n =>
      headerOf p &&& 0xFFFFFFFF = 0x00000005 ∧ p.length = 12 ∧ n = be ((p.drop 4).take 8) ∧ n < 2 ^ 64

/-- R90: what the four pseudo-commands expand to, as packets. FINALIZE_FIXED_DEFAULT, after any lines, a CONSTRUCT line and any commands that are no
CONSTRUCT, takes the parameter set of that CONSTRUCT; that it is the latest in the text, even one the block may reject, is the model's choice (log
17). -/
def Obligations.PseudoCommandsExpand : Prop :=
  (∀ (before : List AsmLine) (packets : List Bytes) (ps : ParamSet) (key custom : Bytes) (between : List Instr),
    assemble none before = some packets → (∀ i ∈ between, ∀ ps' key' custom', i ≠ .construct ps' key' custom') →
    assemble none (before ++ .command (.construct ps key custom) :: between.map .command ++ [.fixedDefault]) =
      some (packets ++ encode (.construct ps key custom) :: between.map encode ++
        [encode (.finalizeFixed (match ps with | .kmac128 => 32 | .kmac256 => 64))])) ∧
  (∀ (cur : Option ParamSet) (ps : ParamSet) (key custom msg : Bytes) (len n : Nat),
    assemble cur [.kmac ps key custom msg none] =
      some [encode (.construct ps key custom), encode (.update msg),
        encode (.finalizeFixed (match ps with | .kmac128 => 32 | .kmac256 => 64))] ∧
    assemble cur [.kmac ps key custom msg (some len)] =
      some [encode (.construct ps key custom), encode (.update msg), encode (.finalizeFixed len)] ∧
    assemble cur [.kmacXof ps key custom msg n] =
      some [encode (.construct ps key custom), encode (.update msg), encode .finalizeXof, encode (.read n)])

/-- R89's `x"..."`: any two hexadecimal digits for each byte, of upper case, in an UPDATE line assemble to the packet of those bytes. -/
def Obligations.HexTextOfAnUpdateAssembles : Prop :=
  ∀ data : Bytes,
    assembleText [("UPDATE x\"".toList ++
        (data.map fun b => ["0123456789ABCDEF".toList.getD (b.toNat / 16) '0',
          "0123456789ABCDEF".toList.getD (b.toNat % 16) '0']).flatten ++ ['"'])] =
      some [encode (.update data)]

/-! ### Byte encodings (40_byte_encoding.md) -/

/-- R110: the digits of enc_b(x), and its corner cases. -/
def Obligations.EncBIsMinimalBigEndian : Prop :=
  ∀ x : Nat,
    (encB x).length = nbytes x ∧
    (∀ i < nbytes x, (encB x)[i]? = some (BitVec.ofNat 8 (x / 256 ^ (nbytes x - 1 - i) % 256))) ∧
    be (encB x) = x ∧
    (0 < x → (encB x).head? ≠ some 0) ∧
    encB 0 = [0]

/-- R111 and R118: nbytes as the length of enc_b and from the binary length (Nat.size), and the thresholds. -/
def Obligations.NbytesThresholds : Prop :=
  (∀ x : Nat, nbytes x = (encB x).length ∧ nbytes x = max 1 ((x.size + 7) / 8)) ∧
  (∀ x : Nat, x ≤ 255 → nbytes x = 1) ∧
  (∀ x m : Nat, 1 ≤ m → x ≠ 0 → (nbytes x = m ↔ 256 ^ (m - 1) ≤ x ∧ x < 256 ^ m)) ∧
  (∀ k m : Nat, 1 ≤ m → (nbytes (8 * k) ≤ m ↔ k < 2 ^ (8 * m - 3))) ∧
  (∀ k lim : Nat, 1 ≤ lim → lim ≤ 255 → (encodable (8 * k) lim = true ↔ k < 2 ^ (8 * lim - 3)))

/-- R121, its five laws, on the operands R112, R113 and R115 admit (nbytes ≤ 255) and R116 admits (w ≥ 1). -/
def Obligations.EncodingsFrameUnambiguously : Prop :=
  (∀ x y : Nat, nbytes x ≤ 255 → nbytes y ≤ 255 →
    (leftEncode x = leftEncode y → x = y) ∧ (rightEncode x = rightEncode y → x = y) ∧
    (leftEncode x <+: leftEncode y → x = y) ∧ (rightEncode x <:+ rightEncode y → x = y) ∧
    (1 ≤ x → rightEncode x ≠ rightEncode 0)) ∧
  (∀ s s' t t' : Bytes, nbytes (8 * s.length) ≤ 255 → nbytes (8 * s'.length) ≤ 255 →
    encodeString s ++ t = encodeString s' ++ t' → s = s' ∧ t = t') ∧
  (∀ (x : Bytes) (w : Nat), 1 ≤ w → (bytepad x w).length % w = 0)

/-- R119: the bytes of the key block, its length, and its corner cases. -/
def Obligations.KeyBlockBytes : Prop :=
  (∀ (key : Bytes) (ps : ParamSet),
    let r := match ps with | .kmac128 => 168 | .kmac256 => 136
    let u := 2 + 1 + nbytes (8 * key.length) + key.length
    let k := (u + r - 1) / r
    keyBlock key ps =
      [0x01, BitVec.ofNat 8 r] ++ [BitVec.ofNat 8 (nbytes (8 * key.length))] ++ encB (8 * key.length) ++ key ++
        List.replicate (r * k - u) 0 ∧
    (keyBlock key ps).length = r * k ∧ 1 ≤ k) ∧
  (∀ key : Bytes, key.length = 0 → (keyBlock key .kmac128).length = 168 ∧ (keyBlock key .kmac256).length = 136) ∧
  (∀ key : Bytes, key.length = 131 → (keyBlock key .kmac256).length = 136) ∧
  (∀ key : Bytes, key.length = 132 → (keyBlock key .kmac256).length = 272) ∧
  (∀ key : Bytes, key.length = 163 → (keyBlock key .kmac128).length = 168) ∧
  (∀ key : Bytes, key.length = 164 → (keyBlock key .kmac128).length = 336) ∧
  (∀ key : Bytes, key.length = 400 → (keyBlock key .kmac128).length = 504 ∧ (keyBlock key .kmac256).length = 408)

/-- R120: the suffixes, their size for every 64-bit L, the values listed, and that a finalize never reports INVALID_LENGTH. -/
def Obligations.LengthSuffixes : Prop :=
  (∀ len : Nat, 1 ≤ len → len < 2 ^ 64 →
    fixedSuffix len = encB (8 * len) ++ [BitVec.ofNat 8 (nbytes (8 * len))] ∧
    (fixedSuffix len).length ≤ 10 ∧ nbytes (8 * len) ≤ 9) ∧
  xofSuffix = [0x00, 0x01] ∧ fixedSuffix 32 = [0x01, 0x00, 0x02] ∧ fixedSuffix 64 = [0x02, 0x00, 0x02] ∧
  fixedSuffix 1 = [0x08, 0x01] ∧
  fixedSuffix (2 ^ 64 - 1) = [0x07, 0xFF, 0xFF, 0xFF, 0xFF, 0xFF, 0xFF, 0xFF, 0xF8, 0x09] ∧
  (∀ (s t : State) (len : Nat), exec (.finalizeFixed len) s = .next t ∨ exec .finalizeXof s = .next t →
    t.err ≠ .invalidLength)

/-! ### CONSTRUCT (41_construct_update.md) -/

/-- R140 to R143: the packet, the checks in R141's order, each rejection changing only ERR and STICKY, and the accepted CONSTRUCT: one SpConstruct
with the label "KMAC", then one SpAbsorb per R-byte block of the key block, and every other field as R140 writes it or as it was. -/
def Obligations.ConstructChecksThenBegins : Prop :=
  ∀ (ps : ParamSet) (key custom : Bytes) (s : State),
    (key.length < 2 ^ 64 →
      decode (([0x00, 0x00, (match ps with | .kmac128 => 0x00 | .kmac256 => 0x01), 0x01] : Bytes) ++ beBytes 8 key.length ++
        key ++ custom) = .ok (.construct ps key custom)) ∧
    (s.cfg.encLimit < nbytes (8 * key.length) ∨ s.cfg.encLimit < nbytes (8 * custom.length) →
      exec (.construct ps key custom) s = .next { s with err := .invalidLength, sticky := true }) ∧
    (nbytes (8 * key.length) ≤ s.cfg.encLimit → nbytes (8 * custom.length) ≤ s.cfg.encLimit →
      key.length < s.cfg.minKeyBytes →
      exec (.construct ps key custom) s = .next { s with err := .keyTooShort, sticky := true }) ∧
    (nbytes (8 * key.length) ≤ s.cfg.encLimit → nbytes (8 * custom.length) ≤ s.cfg.encLimit →
      s.cfg.minKeyBytes ≤ key.length →
      exec (.construct ps key custom) s = .next
        { s with
          phase := .absorbing, pset := ps, buf := [], pend := [], err := .ok
          sp := some { custom := custom, absorbed := keyBlock key ps, squeezes := 0 }
          calls := s.calls ++ [.construct [0x4B, 0x4D, 0x41, 0x43] custom ps] ++
            (List.range ((keyBlock key ps).length / rate ps)).map fun i =>
              .absorb (((keyBlock key ps).drop (i * rate ps)).take (rate ps)) })

/-- R144: an accepted CONSTRUCT leaves the same phase, parameter set, buffers, collaborator record and ERR whatever instance was there before, makes
the same collaborator calls, the first of which starts a new collaborator instance, and emits nothing: what the old instance held is dropped, never
absorbed, and no call goes to its collaborator instance. -/
def Obligations.ConstructForgetsThePreviousInstance : Prop :=
  ∀ (ps : ParamSet) (key custom : Bytes) (s s' : State), Accepts s key custom → Accepts s' key custom →
    ∃ t t' new, exec (.construct ps key custom) s = .next t ∧ exec (.construct ps key custom) s' = .next t' ∧
      t.phase = t'.phase ∧ t.pset = t'.pset ∧ t.buf = t'.buf ∧ t.pend = t'.pend ∧ t.sp = t'.sp ∧ t.err = t'.err ∧
      t.calls = s.calls ++ .construct [0x4B, 0x4D, 0x41, 0x43] custom ps :: new ∧
      t'.calls = s'.calls ++ .construct [0x4B, 0x4D, 0x41, 0x43] custom ps :: new ∧
      (∀ c ∈ new, ∃ b, c = SpCall.absorb b) ∧ t.out = s.out ∧ t'.out = s'.out

/-- R36 and R146: two accepted CONSTRUCTs that differ only in the key leave states that differ only in the absorbed stream, which the key reached
inside the key block, and in the record of the calls that passed it on. -/
def Obligations.ConstructKeepsNoCopyOfTheKey : Prop :=
  ∀ (ps : ParamSet) (key key' custom : Bytes) (s : State), Accepts s key custom → Accepts s key' custom →
    ∃ t t', exec (.construct ps key custom) s = .next t ∧ exec (.construct ps key' custom) s = .next t' ∧
      t'.sp = t.sp.map (fun p => { p with absorbed := keyBlock key' ps }) ∧
      { t' with sp := t.sp, calls := t.calls } = t

/-- R212's last sentence: with ENC_LIMIT = 255 no packet the channel can carry (R60) is rejected with INVALID_LENGTH. -/
def Obligations.NormativeLimitNeverRejects : Prop :=
  ∀ (s t : State) (p : Bytes) (rest : List HostInput), s.cfg.encLimit = 255 → s.inputs = .packet p :: rest →
    p.length < 2 ^ 64 → step s = .next t → t.err ≠ .invalidLength

/-! ### UPDATE (41_construct_update.md) -/

/-- R150: the packet; in ABSORBING every full block of t = st.buf ++ D is absorbed, one call per block, and the rest, fewer than R bytes, stays
buffered; in any other phase SEQUENCE. Every field not named is unchanged. -/
def Obligations.UpdateAbsorbsEveryFullBlock : Prop :=
  ∀ (data : Bytes) (s : State),
    decode (([0x00, 0x00, 0x00, 0x02] : Bytes) ++ data) = .ok (.update data) ∧
    (s.phase ≠ .absorbing → exec (.update data) s = .next { s with err := .sequence, sticky := true }) ∧
    (∀ p, s.phase = .absorbing → s.sp = some p →
      let r := rate s.pset
      let t := s.buf ++ data
      let k := t.length / r
      exec (.update data) s = .next
        { s with
          buf := t.drop (k * r), err := .ok
          sp := some { p with absorbed := p.absorbed ++ t.take (k * r) }
          calls := s.calls ++ (List.range k).map fun i => .absorb ((t.drop (i * r)).take r) } ∧
      (t.drop (k * r)).length < r)

/-- R152: UPDATE X1 ; UPDATE X2 leaves the very state, calls included, that UPDATE (X1 ++ X2) leaves. -/
def Obligations.UpdateSplitsAreEquivalent : Prop :=
  ∀ (x1 x2 : Bytes) (s : State) (p : SpRec), s.phase = .absorbing → s.sp = some p →
    ∃ t u, exec (.update x1) s = .next t ∧ exec (.update x2) t = .next u ∧ exec (.update (x1 ++ x2)) s = .next u

/-- R153: an empty UPDATE in ABSORBING changes ERR and nothing else. -/
def Obligations.EmptyUpdateWritesOnlyErr : Prop :=
  ∀ (s : State) (p : SpRec), s.phase = .absorbing → s.sp = some p → s.buf.length < rate s.pset →
    exec (.update []) s = .next { s with err := .ok }

/-- R151, for a CONSTRUCT and UPDATEs with nothing between them: after any number of UPDATEs with payloads xs, from any state, the absorbed stream
is KB(K, ps) and all of X but its last |X| mod R bytes, which are st.buf; and every SpAbsorb made had R bytes. -/
def Obligations.AbsorbedStreamWhileAbsorbing : Prop :=
  ∀ (ps : ParamSet) (key custom : Bytes) (xs : List Bytes) (s : State), Accepts s key custom →
    ∃ t p new, execAll (.construct ps key custom :: xs.map .update) s = .next t ∧
      t.phase = .absorbing ∧ t.pset = ps ∧ t.sp = some p ∧ p.custom = custom ∧ p.squeezes = 0 ∧
      t.buf.length = xs.flatten.length % rate ps ∧
      t.buf = xs.flatten.drop (xs.flatten.length - t.buf.length) ∧
      p.absorbed = keyBlock key ps ++ xs.flatten.take (xs.flatten.length - t.buf.length) ∧
      t.calls = s.calls ++ new ∧ (∀ b, SpCall.absorb b ∈ new → b.length = rate ps) ∧ t.out = s.out

/-! ### FINALIZE_FIXED and FINALIZE_XOF (42_finalize.md) -/

/-- R170 and R171: the packet of FINALIZE_FIXED, and FINALIZE_FIXED in an ABSORBING instance that has squeezed nothing, with a collaborator that
meets R225. t = st.buf ++ right_encode(8·L) is absorbed as at most one full block and at most one partial one; ceil(L/R) blocks of Z are squeezed
and its first L bytes emitted. L = 0 is BAD_OUTLEN, another phase SEQUENCE. Every field not named is unchanged. (A collaborator that departs from
R225: EmittedBytesAreTheAnswers.) -/
def Obligations.FinalizeFixedEmitsTheFirstBytes : Prop :=
  ∀ (len : Nat) (s : State),
    (len < 2 ^ 64 → decode (([0x00, 0x00, 0x00, 0x03] : Bytes) ++ beBytes 8 len) = .ok (.finalizeFixed len)) ∧
    (s.phase ≠ .absorbing → exec (.finalizeFixed len) s = .next { s with err := .sequence, sticky := true }) ∧
    (s.phase = .absorbing → len = 0 →
      exec (.finalizeFixed len) s = .next { s with err := .badOutlen, sticky := true }) ∧
    (∀ p, s.cfg.collab = .meetsContract → s.phase = .absorbing → s.sp = some p → p.squeezes = 0 →
      s.buf.length < rate s.pset → 1 ≤ len → len < 2 ^ 64 →
      let r := rate s.pset
      let t := s.buf ++ rightEncode (8 * len)
      let z := Config.spOut s.pset p.custom (p.absorbed ++ t)
      let n := (len + r - 1) / r
      exec (.finalizeFixed len) s = .next
        { s with
          phase := .finalizedFixed, buf := [], pend := [], err := .ok
          out := s.out ++ (List.range len).map z
          sp := some { custom := p.custom, absorbed := p.absorbed ++ t, squeezes := n }
          calls := s.calls ++ (if r ≤ t.length then [.absorb (t.take r)] else []) ++
            (if t.length % r ≠ 0 then [.absorb (t.drop (t.length / r * r))] else []) ++
            (List.range n).map fun i => .squeeze ((List.range r).map fun m => z (i * r + m)) })

/-- R170 and R172: the packet of FINALIZE_XOF; it absorbs right_encode(0) = 00 01 after the buffered bytes, squeezes nothing and emits nothing. -/
def Obligations.FinalizeXofStartsTheReader : Prop :=
  ∀ s : State,
    decode [0x00, 0x00, 0x00, 0x04] = .ok .finalizeXof ∧
    (s.phase ≠ .absorbing → exec .finalizeXof s = .next { s with err := .sequence, sticky := true }) ∧
    (∀ p, s.phase = .absorbing → s.sp = some p → s.buf.length < rate s.pset →
      let r := rate s.pset
      let t := s.buf ++ [0x00, 0x01]
      exec .finalizeXof s = .next
        { s with
          phase := .squeezing, buf := [], pend := [], err := .ok
          sp := some { p with absorbed := p.absorbed ++ t }
          calls := s.calls ++ (if r ≤ t.length then [.absorb (t.take r)] else []) ++
            (if t.length % r ≠ 0 then [.absorb (t.drop (t.length / r * r))] else []) })

/-- R174: from one ABSORBING state, two fixed lengths, or a fixed length and the XOF mode, give different absorbed streams. -/
def Obligations.OutputModesAbsorbDifferentStreams : Prop :=
  ∀ (s : State) (p : SpRec), s.phase = .absorbing → s.sp = some p →
    (∀ l1 l2 : Nat, 1 ≤ l1 → l1 < 2 ^ 64 → 1 ≤ l2 → l2 < 2 ^ 64 → l1 ≠ l2 →
      ∃ t1 t2 p1 p2, exec (.finalizeFixed l1) s = .next t1 ∧ exec (.finalizeFixed l2) s = .next t2 ∧
        t1.sp = some p1 ∧ t2.sp = some p2 ∧ p1.absorbed ≠ p2.absorbed) ∧
    (∀ l : Nat, 1 ≤ l → l < 2 ^ 64 →
      ∃ t1 t2 p1 p2, exec (.finalizeFixed l) s = .next t1 ∧ exec .finalizeXof s = .next t2 ∧
        t1.sp = some p1 ∧ t2.sp = some p2 ∧ p1.absorbed ≠ p2.absorbed)

/-- R176 (and R38, R175, R195): once finalized, a packet other than a CONSTRUCT leaves the phase, the customization and the absorbed stream as they
are and makes no SpAbsorb and no SpConstruct; UPDATE and both finalizes, and in FINALIZED_FIXED also READ, are rejected with SEQUENCE. -/
def Obligations.FinalizeIsTerminal : Prop :=
  ∀ (s : State) (q : SpRec) (p : Bytes) (rest : List HostInput),
    s.phase = .finalizedFixed ∨ s.phase = .squeezing → s.sp = some q → s.inputs = .packet p :: rest →
    (∀ ps key custom, decode p ≠ .ok (.construct ps key custom)) →
    ∃ t q' new, step s = .next t ∧ t.phase = s.phase ∧ t.sp = some q' ∧ q'.custom = q.custom ∧
      q'.absorbed = q.absorbed ∧ t.calls = s.calls ++ new ∧ (∀ c ∈ new, ∃ a, c = SpCall.squeeze a) ∧
      (s.phase = .finalizedFixed → new = [] ∧ t.out = s.out) ∧
      (∀ i, decode p = .ok i → s.phase = .finalizedFixed ∨ (∀ n, i ≠ .read n) →
        t = { s with inputs := rest, err := .sequence, sticky := true })

/-! ### READ (43_xof_reader.md) -/

/-- R190: the packet of READ(n); with a collaborator that meets R225, READ(n) emits the first n bytes of st.pend followed by the freshly squeezed
blocks, squeezing ceil((n - |st.pend|)/R) of them when n is larger than |st.pend| and none otherwise, and keeps the rest pending; outside SQUEEZING
it is rejected. Every field not named is unchanged. (A collaborator that departs from R225: EmittedBytesAreTheAnswers.) -/
def Obligations.ReadEmitsTheNextBytes : Prop :=
  ∀ (n : Nat) (s : State),
    (n < 2 ^ 64 → decode (([0x00, 0x00, 0x00, 0x05] : Bytes) ++ beBytes 8 n) = .ok (.read n)) ∧
    (s.phase ≠ .squeezing → exec (.read n) s = .next { s with err := .sequence, sticky := true }) ∧
    (∀ p, s.cfg.collab = .meetsContract → s.phase = .squeezing → s.sp = some p →
      let r := rate s.pset
      let z := Config.spOut s.pset p.custom p.absorbed
      let m := if n ≤ s.pend.length then 0 else (n - s.pend.length + r - 1) / r
      let blocks := (List.range m).map fun i => (List.range r).map fun k => z ((p.squeezes + i) * r + k)
      exec (.read n) s = .next
        { s with
          out := s.out ++ (s.pend ++ blocks.flatten).take n
          pend := (s.pend ++ blocks.flatten).drop n
          err := .ok
          sp := some { p with squeezes := p.squeezes + m }
          calls := s.calls ++ blocks.map .squeeze })

/-- R191: the sub-state p = |st.pend| after READ(n), in both rows of the table and as (p - n) mod R, with the SpSqueeze calls and the bytes emitted;
the blocks squeezed are the next blocks of Z where the collaborator meets R225; and FINALIZE_XOF enters EMPTY. -/
def Obligations.ReaderSubstates : Prop :=
  (∀ (n : Nat) (s : State) (q : SpRec), s.phase = .squeezing → s.sp = some q → s.pend.length < rate s.pset →
    ∃ (t : State) (answers : List Bytes) (new : Bytes), exec (.read n) s = .next t ∧
      t.sp = some { q with squeezes := q.squeezes + answers.length } ∧
      t.calls = s.calls ++ answers.map .squeeze ∧ (∀ a ∈ answers, a.length = rate s.pset) ∧
      (s.cfg.collab = .meetsContract → answers = (List.range answers.length).map fun i =>
        (List.range (rate s.pset)).map fun k =>
          Config.spOut s.pset q.custom q.absorbed ((q.squeezes + i) * rate s.pset + k)) ∧
      t.out = s.out ++ new ∧ new.length = n ∧
      (n ≤ s.pend.length → answers = [] ∧ new = s.pend.take n ∧ t.pend.length = s.pend.length - n) ∧
      (s.pend.length < n → answers.length = (n - s.pend.length + rate s.pset - 1) / rate s.pset ∧
        new = s.pend ++ answers.flatten.take (n - s.pend.length) ∧
        t.pend.length = rate s.pset * answers.length - (n - s.pend.length)) ∧
      (t.pend.length : Int) = ((s.pend.length : Int) - n) % (rate s.pset : Int)) ∧
  (∀ (s : State) (q : SpRec), s.phase = .absorbing → s.sp = some q → q.squeezes = 0 →
    ∃ t q', exec .finalizeXof s = .next t ∧ t.phase = .squeezing ∧ t.pend = [] ∧ t.sp = some q' ∧ q'.squeezes = 0)

/-- R192, any split of a READ in two: READ a ; READ b leaves the very state, calls and output included, that READ (a + b) leaves. (For a
collaborator that departs from R225 this rests on log 16: what it answers depends on the calls before.) -/
def Obligations.ReadSplitsAreEquivalent : Prop :=
  ∀ (a b : Nat) (s : State) (p : SpRec), s.phase = .squeezing → s.sp = some p →
    ∃ t u, exec (.read a) s = .next t ∧ exec (.read b) t = .next u ∧ exec (.read (a + b)) s = .next u

/-- R192, for a FINALIZE_XOF and READs with nothing between them and a collaborator that meets R225: with T the sum of the counts ns, they emitted
Z[0:T], j = ceil(T/R) and the R·ceil(T/R) - T bytes of Z after those are pending. -/
def Obligations.StreamingConsistency : Prop :=
  ∀ (ns : List Nat) (s : State) (p : SpRec), s.cfg.collab = .meetsContract → s.phase = .absorbing → s.sp = some p → p.squeezes = 0 →
    ∃ t q, execAll (.finalizeXof :: ns.map .read) s = .next t ∧ t.phase = .squeezing ∧ t.sp = some q ∧
      q.custom = p.custom ∧ q.absorbed = p.absorbed ++ s.buf ++ [0x00, 0x01] ∧
      t.out = s.out ++ (List.range ns.sum).map (Config.spOut s.pset q.custom q.absorbed) ∧
      q.squeezes = (ns.sum + rate s.pset - 1) / rate s.pset ∧
      t.pend.length = rate s.pset * ((ns.sum + rate s.pset - 1) / rate s.pset) - ns.sum ∧
      t.pend = (List.range t.pend.length).map fun i => Config.spOut s.pset q.custom q.absorbed (ns.sum + i)

/-! ### The whole MAC (42_finalize.md rule R173) -/

/-- R173 and R64, end to end through packets and steps: whatever state the block is in, with a collaborator that meets R225, the packets of an
accepted CONSTRUCT, any UPDATEs and a FINALIZE_FIXED L make it absorb KB(K, ps) ++ X ++ right_encode(8·L) and emit Z[0], …, Z[L-1] in this order,
with no rejection recorded. That the packets wait in a list is the model's (log 1). -/
def Obligations.KmacFixedEndToEnd : Prop :=
  ∀ (ps : ParamSet) (key custom : Bytes) (xs : List Bytes) (len : Nat) (s : State),
    s.cfg.collab = .meetsContract → Accepts s key custom → 1 ≤ len →
    let cmds : List Instr := .construct ps key custom :: (xs.map .update ++ [.finalizeFixed len])
    (∀ i ∈ cmds, i.wf = true) → s.inputs = cmds.map (fun i => .packet (encode i)) →
    let a := keyBlock key ps ++ xs.flatten ++ rightEncode (8 * len)
    ∃ t, Host.Core.run Sys2Proof.core cmds.length s = .next t ∧
      State.phase t = .finalizedFixed ∧ State.pset t = ps ∧ State.buf t = [] ∧ State.pend t = [] ∧
      State.sp t = some { custom := custom, absorbed := a, squeezes := (len + rate ps - 1) / rate ps } ∧
      State.out t = s.out ++ (List.range len).map (Config.spOut ps custom a) ∧
      State.err t = .ok ∧ State.sticky t = s.sticky ∧ State.inputs t = []

/-- R173 and R64 for the XOF mode, end to end, with a collaborator that meets R225: an accepted CONSTRUCT, any UPDATEs, a FINALIZE_XOF and any
READs, T bytes in all, make the block absorb KB(K, ps) ++ X ++ 00 01 and emit Z[0:T]; the output depends on the message and on T alone, not on how
either was split (R40). That the packets wait in a list is the model's (log 1). -/
def Obligations.KmacXofEndToEnd : Prop :=
  ∀ (ps : ParamSet) (key custom : Bytes) (xs : List Bytes) (ns : List Nat) (s : State),
    s.cfg.collab = .meetsContract → Accepts s key custom →
    let cmds : List Instr := .construct ps key custom :: (xs.map .update ++ .finalizeXof :: ns.map .read)
    (∀ i ∈ cmds, i.wf = true) → s.inputs = cmds.map (fun i => .packet (encode i)) →
    let a := keyBlock key ps ++ xs.flatten ++ rightEncode 0
    ∃ t, Host.Core.run Sys2Proof.core cmds.length s = .next t ∧
      State.phase t = .squeezing ∧ State.pset t = ps ∧
      State.sp t = some { custom := custom, absorbed := a, squeezes := (ns.sum + rate ps - 1) / rate ps } ∧
      State.out t = s.out ++ (List.range ns.sum).map (Config.spOut ps custom a) ∧
      State.err t = .ok ∧ State.sticky t = s.sticky ∧ State.inputs t = []

/-! ### Steps, rejection and STATUS (60_exceptions.md, 10_state.md) -/

/-- A step takes the host's next input (R68): a packet that decodes is consumed and its command executed; with nothing waiting the block waits,
which is the model's reading of R252 (log 1). -/
def Obligations.StepRunsTheDecodedCommand : Prop :=
  (∀ (s : State) (p : Bytes) (rest : List HostInput) (i : Instr), s.inputs = .packet p :: rest → decode p = .ok i →
    step s = exec i { s with inputs := rest }) ∧
  (∀ s : State, s.inputs = [] → step s = .next s)

/-- R217: in every state that satisfies the invariant a packet completes or is rejected, never stuck, and ERR is the code of the first check that
fails, Decode before the phase and the phase before the operands. -/
def Obligations.FirstFailingCheckIsReported : Prop :=
  ∀ (s : State) (p : Bytes) (rest : List HostInput), Inv s → s.inputs = .packet p :: rest →
    ∃ t, step s = .next t ∧
      t.err = (match decode p with
        | .error _ => .illegal
        | .ok (.construct _ key custom) =>
          if s.cfg.encLimit < nbytes (8 * key.length) then .invalidLength
          else if s.cfg.encLimit < nbytes (8 * custom.length) then .invalidLength
          else if key.length < s.cfg.minKeyBytes then .keyTooShort else .ok
        | .ok (.update _) => if s.phase = .absorbing then .ok else .sequence
        | .ok (.finalizeFixed len) =>
          if s.phase = .absorbing then (if len = 0 then .badOutlen else .ok) else .sequence
        | .ok .finalizeXof => if s.phase = .absorbing then .ok else .sequence
        | .ok (.read _) => if s.phase = .squeezing then .ok else .sequence)

/-- R210 and R218: after a packet that reports a code other than OK, every element but ERR and STICKY holds what it held, no call was made and no
byte emitted; only the packet is gone. -/
def Obligations.RejectionIsPrecise : Prop :=
  ∀ (s t : State) (p : Bytes) (rest : List HostInput), s.inputs = .packet p :: rest → step s = .next t → t.err ≠ .ok →
    t = { s with inputs := rest, err := t.err, sticky := true }

/-- R30 and R31, over a run of packets: STICKY is 0 at the end exactly when it was 0 at the start and every packet of the run left ERR = OK. -/
def Obligations.StickyRecordsAnyRejection : Prop :=
  ∀ (packets : List Bytes) (s t : State), s.inputs = packets.map .packet →
    Host.Core.run Sys2Proof.core packets.length s = .next t →
    (State.sticky t = false ↔ s.sticky = false ∧
      ∀ k u, k < packets.length → Host.Core.run Sys2Proof.core (k + 1) s = .next u → State.err u = .ok)

/-- R37: from a state that satisfies the invariant, the phase after a packet, its table row by row; and after reset, in any phase, UNCONSTRUCTED. -/
def Obligations.LifecycleTransitions : Prop :=
  (∀ (s : State) (p : Bytes) (rest : List HostInput), Inv s → s.inputs = .packet p :: rest →
    ∃ t, step s = .next t ∧
      (∀ e, decode p = .error e → t.err = .illegal ∧ t.phase = s.phase) ∧
      (∀ ps key custom, decode p = .ok (.construct ps key custom) →
        t.err = .ok ∧ t.phase = .absorbing ∨ t.err ≠ .ok ∧ t.phase = s.phase) ∧
      (∀ data, decode p = .ok (.update data) →
        if s.phase = .absorbing then t.err = .ok ∧ t.phase = .absorbing else t.err = .sequence ∧ t.phase = s.phase) ∧
      (∀ len, decode p = .ok (.finalizeFixed len) →
        if s.phase = .absorbing then
          (if len = 0 then t.err = .badOutlen ∧ t.phase = .absorbing else t.err = .ok ∧ t.phase = .finalizedFixed)
        else t.err = .sequence ∧ t.phase = s.phase) ∧
      (decode p = .ok .finalizeXof →
        if s.phase = .absorbing then t.err = .ok ∧ t.phase = .squeezing else t.err = .sequence ∧ t.phase = s.phase) ∧
      (∀ n, decode p = .ok (.read n) →
        if s.phase = .squeezing then t.err = .ok ∧ t.phase = .squeezing else t.err = .sequence ∧ t.phase = s.phase)) ∧
  (∀ (s : State) (rest : List HostInput), s.inputs = .reset :: rest → ∃ t, step s = .next t ∧ t.phase = .unconstructed)

/-- R28: the fields of STATUS, its reserved bits, no ERR value above 5, and its value at reset. -/
def Obligations.StatusWordLayout : Prop :=
  ∀ s : State,
    s.status.extractLsb' 0 2 = (match s.phase with
      | .unconstructed => 0 | .absorbing => 1 | .finalizedFixed => 2 | .squeezing => 3) ∧
    s.status.extractLsb' 2 1 = (match s.pset with | .kmac128 => 0 | .kmac256 => 1) ∧
    s.status.extractLsb' 3 5 = 0 ∧
    s.status.extractLsb' 8 4 = (match s.err with
      | .ok => 0 | .invalidLength => 1 | .sequence => 2 | .illegal => 3 | .badOutlen => 4 | .keyTooShort => 5) ∧
    s.status.extractLsb' 12 1 = (if s.sticky then 1 else 0) ∧
    s.status.extractLsb' 13 19 = 0 ∧ State.reset.status = 0

/-- R29: a read of the status port returns STATUS and changes nothing of the block; that the returned values are kept in a history is the model's
(log 9). -/
def Obligations.StatusReadHasNoSideEffect : Prop :=
  ∀ (s : State) (rest : List HostInput), s.inputs = .readStatus :: rest →
    step s = .next { s with inputs := rest, statusReads := s.statusReads ++ [s.status] }

/-- R250 and R251: hardware reset, from any state: every element at the value of R250's table; no collaborator call, no byte emitted or taken back
from the history, and the configuration as it was. That an empty output since the reset stands for R250's 'no byte pending' is the model's choice
(log 7), and so is the view of the buffers' storage (log 10). -/
def Obligations.HardwareResetRestoresTheTable : Prop :=
  ∀ (s : State) (rest : List HostInput), s.inputs = .reset :: rest →
    ∃ t, step s = .next t ∧ t.phase = .unconstructed ∧ t.pset = .kmac128 ∧ t.buf = [] ∧ t.fill = 0 ∧ t.pend = [] ∧
      t.sp = none ∧ t.err = .ok ∧ t.sticky = false ∧ t.status = 0x00000000 ∧
      t.bufStorage = List.replicate 168 0 ∧ t.pendStorage = List.replicate 168 0 ∧
      t.outSinceReset = [] ∧ t.calls = s.calls ∧ t.out = s.out ∧ t.cfg = s.cfg ∧ t.inputs = rest

/-- R250 at power-on, with the normative ENC_LIMIT of R5 (held at 255 by the model's choice, log 5), a collaborator that meets R225 as R253 asks,
and the invariants at reset. -/
def Obligations.PowerOnStateIsLegal : Prop :=
  State.reset.phase = .unconstructed ∧ State.reset.pset = .kmac128 ∧ State.reset.buf = [] ∧ State.reset.fill = 0 ∧
  State.reset.pend = [] ∧ State.reset.sp = none ∧ State.reset.err = .ok ∧ State.reset.sticky = false ∧
  State.reset.status = 0 ∧ State.reset.out = [] ∧ State.reset.cfg.encLimit = 255 ∧
  State.reset.cfg.collab = .meetsContract ∧
  Inv State.reset ∧ PortOk State.reset

/-! ### Invariants and whole-machine rules -/

/-- R35: every step keeps the invariant, from every state that satisfies it. Inv holds R35's table and, in the finalized phases where the
collaborator meets R225, that the bytes emitted since the finalize are the first bytes of Z (R64) and st.pend the next ones (R25). -/
def Obligations.StepKeepsThePhaseInvariant : Prop :=
  ∀ s t : State, Inv s → step s = .next t → Inv t

/-- R224 to R226 and R26: every step keeps the history of collaborator calls legal (one SpConstruct with "KMAC", then SpAbsorbs of 1..R bytes, then
SpSqueezes answered with R bytes, as R225 says where the collaborator meets it) and st.sp its record. That the calls are kept in a history is the
model's (log 8). -/
def Obligations.StepKeepsThePortProtocol : Prop :=
  ∀ s t : State, Inv s → PortOk s → step s = .next t → PortOk t

/-- R210, R220 and R221: in a state that satisfies the invariant every input is taken and answered with a next state: no rejection blocks the block.
-/
def Obligations.EveryInputIsAnswered : Prop :=
  ∀ s : State, Inv s → ∃ t, step s = .next t ∧ t.inputs = s.inputs.tail

/-- 93 I4: the machine stops only where a command of a live instance finds no collaborator instance, which the invariant excludes, and never for
want of a meaning. -/
def Obligations.StuckOnlyWithoutAnInstance : Prop :=
  ∀ s : State, (∀ f, step s = .fault f → s.sp = none ∧ (s.phase = .absorbing ∨ s.phase = .squeezing) ∧ ¬ Inv s) ∧
    (∀ r, step s ≠ .refused r)

/-- R27, R39 and R194: the output history only grows, and only by a packet that decodes to FINALIZE_FIXED L, by exactly L bytes, or to READ n, by
exactly n. -/
def Obligations.OnlyFixedAndReadEmit : Prop :=
  ∀ s t : State, step s = .next t →
    ∃ new, t.out = s.out ++ new ∧
      (new ≠ [] → ∃ p rest, s.inputs = .packet p :: rest ∧
        (decode p = .ok (.finalizeFixed new.length) ∨ decode p = .ok (.read new.length)))

/-- R226 and R64, whatever the collaborator answers: READ emits st.pend and then the R-byte answers to the SpSqueeze calls it makes, in order, up to
n bytes, keeps the rest, and reports OK; FINALIZE_FIXED emits the first L bytes of its answers and reports OK. The answers of a collaborator that
departs from R225 are free bytes. Every field not named is unchanged. That the answers are recorded (log 8) and what a departing collaborator is
(log 16) are the model's choices. -/
def Obligations.EmittedBytesAreTheAnswers : Prop :=
  (∀ (n : Nat) (s : State) (p : SpRec), s.phase = .squeezing → s.sp = some p →
    let r := rate s.pset
    let m := if n ≤ s.pend.length then 0 else (n - s.pend.length + r - 1) / r
    ∃ answers : List Bytes, answers.length = m ∧ (∀ a ∈ answers, a.length = r) ∧
      (s.cfg.collab = .departs → ∀ i < m, answers[i]? =
        some ((List.range r).map (Config.departedByte (s.calls ++ (answers.take i).map .squeeze)))) ∧
      exec (.read n) s = .next
        { s with
          out := s.out ++ (s.pend ++ answers.flatten).take n
          pend := (s.pend ++ answers.flatten).drop n
          err := .ok
          sp := some { p with squeezes := p.squeezes + m }
          calls := s.calls ++ answers.map .squeeze }) ∧
  (∀ (len : Nat) (s : State) (p : SpRec), s.phase = .absorbing → s.sp = some p → s.buf.length < rate s.pset →
    1 ≤ len → len < 2 ^ 64 →
    let r := rate s.pset
    let t := s.buf ++ rightEncode (8 * len)
    let m := (len + r - 1) / r
    let c := s.calls ++ (if r ≤ t.length then [.absorb (t.take r)] else []) ++
      (if t.length % r ≠ 0 then [.absorb (t.drop (t.length / r * r))] else [])
    ∃ answers : List Bytes, answers.length = m ∧ (∀ a ∈ answers, a.length = r) ∧
      (s.cfg.collab = .departs → ∀ i < m, answers[i]? =
        some ((List.range r).map (Config.departedByte (c ++ (answers.take i).map .squeeze)))) ∧
      exec (.finalizeFixed len) s = .next
        { s with
          phase := .finalizedFixed, buf := [], pend := [], err := .ok
          out := s.out ++ answers.flatten.take len
          sp := some { p with absorbed := p.absorbed ++ t, squeezes := p.squeezes + m }
          calls := c ++ answers.map .squeeze })

/-- R22 and R253: the parameter set changes only by reset, to 0, or by an accepted CONSTRUCT, to its PSET; the configuration never changes. -/
def Obligations.ParameterSetAndConfigurationAreFixed : Prop :=
  ∀ s t : State, step s = .next t → t.cfg = s.cfg ∧
    (t.pset = s.pset ∨
      (∃ rest, s.inputs = .reset :: rest ∧ t.pset = .kmac128) ∨
      (∃ p rest ps key custom, s.inputs = .packet p :: rest ∧ decode p = .ok (.construct ps key custom) ∧
        t.err = .ok ∧ t.pset = ps))

/-- R23 and R24: in a state that satisfies the invariant the fill cursor is |st.buf|, at most 167, and both buffers fit their 168 bytes of storage,
of which the bytes beyond the content are zero (the place of the content in the storage is the model's choice, log 10). -/
def Obligations.BuffersFitTheirStorage : Prop :=
  ∀ s : State, Inv s →
    s.fill.toNat = s.buf.length ∧ s.buf.length ≤ 167 ∧
    s.bufStorage.length = 168 ∧ s.bufStorage.take s.buf.length = s.buf ∧
    (∀ b ∈ s.bufStorage.drop s.buf.length, b = 0) ∧
    s.pendStorage.length = 168 ∧ (∀ b ∈ s.pendStorage.drop s.pend.length, b = 0)
end

