-- ==== Sys2Proof/Laws/Bytes.lean ====
section
/-! SUPPORT. Laws of slices, of the big-endian value of a byte string and of its digits. -/

namespace Sys2Proof

@[simp] theorem length_beBytes (n x : Nat) : (beBytes n x).length = n := by simp [beBytes]

theorem length_slice (s : Bytes) (a b : Nat) : (slice s a b).length = min (b - a) (s.length - a) := by
  simp [slice]

theorem slice_zero (s : Bytes) (b : Nat) : slice s 0 b = s.take b := by simp [slice]

theorem be_foldl (s : Bytes) (acc : Nat) :
    s.foldl (fun acc b => acc * 256 + b.toNat) acc = acc * 256 ^ s.length + be s := by
  induction s generalizing acc with
  | nil => simp [be]
  | cons b s ih =>
    simp only [be, List.foldl_cons, List.length_cons]
    rw [ih, ih (0 * 256 + b.toNat)]
    ring

@[simp] theorem be_nil : be [] = 0 := rfl

theorem be_cons (b : Byte) (s : Bytes) : be (b :: s) = b.toNat * 256 ^ s.length + be s := by
  have h := be_foldl s (0 * 256 + b.toNat)
  simpa [be] using h

theorem be_append (s t : Bytes) : be (s ++ t) = be s * 256 ^ t.length + be t := by
  simp only [be, List.foldl_append]
  exact be_foldl t _

theorem be_lt (s : Bytes) : be s < 256 ^ s.length := by
  induction s with
  | nil => simp
  | cons b s ih =>
    rw [be_cons, List.length_cons, pow_succ']
    have hb : b.toNat < 256 := b.isLt
    have : b.toNat * 256 ^ s.length + 256 ^ s.length ≤ 256 * 256 ^ s.length := by
      rw [← Nat.succ_mul]; exact Nat.mul_le_mul_right _ hb
    omega

theorem beBytes_zero (x : Nat) : beBytes 0 x = [] := rfl

theorem beBytes_succ (n x : Nat) :
    beBytes (n + 1) x = BitVec.ofNat 8 (x / 256 ^ n % 256) :: beBytes n x := by
  simp only [beBytes, List.range_succ_eq_map, List.map_cons, List.map_map]
  congr 1
  apply List.map_congr_left
  intro i _
  simp only [Function.comp_apply]
  congr 4
  omega

/-- The digits of a number that fits are the digits of its value. -/
theorem be_beBytes_mod (n x : Nat) : be (beBytes n x) = x % 256 ^ n := by
  induction n with
  | zero => simp [beBytes_zero, Nat.mod_one]
  | succ n ih =>
    rw [beBytes_succ, be_cons, ih, length_beBytes, pow_succ, Nat.mod_mul]
    simp only [BitVec.toNat_ofNat]
    rw [Nat.mod_mod_of_dvd _ (by norm_num)]
    ring

theorem be_beBytes {n x : Nat} (h : x < 256 ^ n) : be (beBytes n x) = x := by
  rw [be_beBytes_mod, Nat.mod_eq_of_lt h]

theorem be_injective {s t : Bytes} (hl : s.length = t.length) (h : be s = be t) : s = t := by
  induction s generalizing t with
  | nil => simpa using hl.symm
  | cons b s ih =>
    cases t with
    | nil => simp at hl
    | cons c t =>
      simp only [List.length_cons, Nat.add_right_cancel_iff] at hl
      rw [be_cons, be_cons, hl] at h
      have hs := be_lt s
      have ht := be_lt t
      rw [hl] at hs
      have hp : 0 < 256 ^ t.length := by positivity
      have hbc : b.toNat = c.toNat := by
        have h1 := congrArg (· / 256 ^ t.length) h
        rwa [Nat.add_comm, Nat.add_mul_div_right _ _ hp, Nat.add_comm (_ * _), Nat.add_mul_div_right _ _ hp,
          Nat.div_eq_of_lt hs, Nat.div_eq_of_lt ht, Nat.zero_add, Nat.zero_add] at h1
      have : be s = be t := by rw [hbc] at h; omega
      rw [ih hl this, BitVec.eq_of_toNat_eq hbc]

theorem beBytes_be (s : Bytes) : beBytes s.length (be s) = s :=
  be_injective (by simp) (be_beBytes (be_lt s))

theorem beBytes_eq_of_be {s : Bytes} {n x : Nat} (hl : s.length = n) (h : be s = x) : beBytes n x = s := by
  subst hl h; exact beBytes_be s

end Sys2Proof
end

