-- ==== Sys2Proof/Laws/ByteEncoding.lean ====
section
/-! SUPPORT. Laws of the byte encodings (40_byte_encoding.md): sizes, values and the shape of the key block and of the suffixes. -/

namespace Sys2Proof.Machine

theorem bitlen_le_iff {x n : Nat} : bitlen x ≤ n ↔ x < 2 ^ n := by
  unfold bitlen
  split
  · subst x; simp
  · rename_i h
    rw [Nat.add_one_le_iff, Nat.log2_lt h]

theorem bitlen_eq_size (x : Nat) : bitlen x = x.size := by
  apply Nat.le_antisymm
  · rw [bitlen_le_iff]; exact Nat.lt_size_self x
  · rw [Nat.size_le]; exact bitlen_le_iff.1 le_rfl

theorem one_le_nbytes (x : Nat) : 1 ≤ nbytes x := Nat.le_max_left _ _

/-- R111's threshold: nbytes(x) ≤ m exactly when x < 256^m. -/
theorem nbytes_le_iff {x m : Nat} (hm : 1 ≤ m) : nbytes x ≤ m ↔ x < 256 ^ m := by
  have h : (256 : Nat) ^ m = 2 ^ (8 * m) := by rw [pow_mul]; norm_num
  rw [h, ← bitlen_le_iff, nbytes]
  omega

theorem lt_pow_nbytes (x : Nat) : x < 256 ^ nbytes x := (nbytes_le_iff (one_le_nbytes x)).1 le_rfl

theorem nbytes_le_nine {x : Nat} (h : x < 2 ^ 67) : nbytes x ≤ 9 := by
  rw [nbytes_le_iff (by norm_num)]
  calc x < 2 ^ 67 := h
    _ ≤ 256 ^ 9 := by norm_num

@[simp] theorem length_encB (x : Nat) : (encB x).length = nbytes x := by simp [encB]

theorem be_encB (x : Nat) : be (encB x) = x := be_beBytes (lt_pow_nbytes x)

@[simp] theorem length_leftEncode (x : Nat) : (leftEncode x).length = nbytes x + 1 := by simp [leftEncode]

@[simp] theorem length_rightEncode (x : Nat) : (rightEncode x).length = nbytes x + 1 := by simp [rightEncode]

theorem encB_injective {x y : Nat} (h : encB x = encB y) : x = y := by
  rw [← be_encB x, h, be_encB]

theorem ofNat_eight_injective {m n : Nat} (hm : m ≤ 255) (hn : n ≤ 255)
    (h : BitVec.ofNat 8 m = BitVec.ofNat 8 n) : m = n := by
  have := congrArg BitVec.toNat h
  simp only [BitVec.toNat_ofNat] at this
  omega

@[simp] theorem length_zeros (n : Nat) : (zeros n).length = n := by simp [zeros]

theorem length_bytepad {x : Bytes} {w : Nat} (hw : 1 ≤ w) :
    (bytepad x w).length = w * (((leftEncode w ++ x).length + w - 1) / w) := by
  simp only [bytepad, List.length_append, length_zeros]
  generalize (leftEncode w).length + x.length = z
  have hd := Nat.div_add_mod z w
  have hlt := Nat.mod_lt z hw
  by_cases h0 : z % w = 0
  · have : (z + w - 1) / w = z / w := by
      rw [Nat.div_eq_iff (by omega)]
      constructor
      · rw [Nat.mul_comm]; omega
      · rw [Nat.mul_comm]; omega
    rw [this, h0, Nat.sub_zero, Nat.mod_self]
    omega
  · have : (z + w - 1) / w = z / w + 1 := by
      rw [Nat.div_eq_iff (by omega)]
      have : (z / w + 1) * w = w * (z / w) + w := by ring
      constructor <;> omega
    rw [this, Nat.mul_add, Nat.mod_eq_of_lt (by omega : w - z % w < w)]
    omega

theorem bytepad_length_mod {x : Bytes} {w : Nat} (hw : 1 ≤ w) : (bytepad x w).length % w = 0 := by
  rw [length_bytepad hw, Nat.mul_mod_right]

theorem rate_pos (ps : ParamSet) : 0 < rate ps := by cases ps <;> decide

theorem rate_le (ps : ParamSet) : rate ps ≤ 168 := by cases ps <;> decide

theorem rate_ge (ps : ParamSet) : 136 ≤ rate ps := by cases ps <;> decide

theorem keyBlock_length_mod (key : Bytes) (ps : ParamSet) : (keyBlock key ps).length % rate ps = 0 :=
  bytepad_length_mod (rate_pos ps)

theorem xofSuffix_eq : xofSuffix = [0, 1] := by decide

/-- R120's bound: for a 64-bit L the suffix has at most 10 bytes. -/
theorem length_fixedSuffix_le {len : Nat} (h : len < 2 ^ 64) : (fixedSuffix len).length ≤ 10 := by
  have := nbytes_le_nine (x := 8 * len) (by omega)
  rw [fixedSuffix, length_rightEncode]; omega

theorem one_le_length_fixedSuffix (len : Nat) : 1 ≤ (fixedSuffix len).length := by
  rw [fixedSuffix, length_rightEncode]; omega

end Sys2Proof.Machine
end

