-- ==== Sys2Proof/Laws/Blocks.lean ====
section
/-! SUPPORT. Laws of splitting a stream into blocks, and of slices of the collaborator's output stream. -/

namespace Sys2Proof.Machine

theorem fullBlocks_eq (r : Nat) (t : Bytes) :
    fullBlocks r t = (List.range (t.length / r)).map fun i => (t.drop (i * r)).take r := by
  simp only [fullBlocks, slice]
  apply List.map_congr_left
  intro i _
  rw [Nat.succ_mul, Nat.add_sub_cancel_left]

theorem flatten_chunks (r k : Nat) (t : Bytes) :
    ((List.range k).map fun i => (t.drop (i * r)).take r).flatten = t.take (k * r) := by
  induction k with
  | zero => simp
  | succ k ih =>
    rw [List.range_succ, List.map_append, List.flatten_append, ih, Nat.succ_mul, List.take_add]
    simp

theorem flatten_fullBlocks (r : Nat) (t : Bytes) : (fullBlocks r t).flatten = t.take (t.length / r * r) := by
  rw [fullBlocks_eq, flatten_chunks]

/-- Blocks and rest make the whole stream. -/
theorem fullBlocks_append_leftover (r : Nat) (t : Bytes) : (fullBlocks r t).flatten ++ leftover r t = t := by
  rw [flatten_fullBlocks, leftover, List.take_append_drop]

theorem length_leftover (r : Nat) (t : Bytes) : (leftover r t).length = t.length % r := by
  have := Nat.div_add_mod t.length r
  have h2 : t.length / r * r = r * (t.length / r) := Nat.mul_comm _ _
  rw [leftover, List.length_drop]
  omega

theorem length_leftover_lt {r : Nat} (hr : 0 < r) (t : Bytes) : (leftover r t).length < r := by
  rw [length_leftover]; exact Nat.mod_lt _ hr

theorem length_of_mem_fullBlocks {r : Nat} {t b : Bytes} (h : b ∈ fullBlocks r t) : b.length = r := by
  rw [fullBlocks_eq, List.mem_map] at h
  obtain ⟨i, hi, rfl⟩ := h
  rw [List.mem_range] at hi
  have h1 : (i + 1) * r ≤ t.length / r * r := Nat.mul_le_mul_right _ hi
  have h2 := Nat.div_mul_le_self t.length r
  rw [Nat.succ_mul] at h1
  rw [List.length_take, List.length_drop]
  omega

theorem fullBlocks_of_lt {r : Nat} {t : Bytes} (h : t.length < r) : fullBlocks r t = [] := by
  rw [fullBlocks, Nat.div_eq_of_lt h]; rfl

theorem leftover_of_lt {r : Nat} {t : Bytes} (h : t.length < r) : leftover r t = t := by
  rw [leftover, Nat.div_eq_of_lt h]; simp

theorem split_div {r : Nat} (hr : 0 < r) (t d : Bytes) :
    (t ++ d).length / r = t.length / r + (leftover r t ++ d).length / r := by
  have hd := Nat.div_add_mod t.length r
  rw [List.length_append, List.length_append, length_leftover]
  conv_lhs => rw [← hd]
  rw [Nat.add_assoc, Nat.mul_add_div hr]

theorem drop_append_leftover (r : Nat) (t d : Bytes) :
    (t ++ d).drop (t.length / r * r) = leftover r t ++ d := by
  rw [leftover, List.drop_append_of_le_length (Nat.div_mul_le_self _ _)]

/-- Absorbing t and then d makes the same blocks as absorbing t ++ d at once (R152). -/
theorem fullBlocks_append {r : Nat} (hr : 0 < r) (t d : Bytes) :
    fullBlocks r (t ++ d) = fullBlocks r t ++ fullBlocks r (leftover r t ++ d) := by
  rw [fullBlocks_eq r (t ++ d), split_div hr, List.range_add, List.map_append, fullBlocks_eq, fullBlocks_eq]
  congr 1
  · apply List.map_congr_left
    intro i hi
    rw [List.mem_range] at hi
    have h1 : (i + 1) * r ≤ t.length / r * r := Nat.mul_le_mul_right _ hi
    have h2 := Nat.div_mul_le_self t.length r
    rw [Nat.succ_mul] at h1
    rw [List.drop_append_of_le_length (by omega), List.take_append_of_le_length (by rw [List.length_drop]; omega)]
  · rw [List.map_map]
    apply List.map_congr_left
    intro i _
    simp only [Function.comp_apply]
    rw [Nat.add_mul, ← List.drop_drop, drop_append_leftover]

theorem leftover_append {r : Nat} (hr : 0 < r) (t d : Bytes) :
    leftover r (t ++ d) = leftover r (leftover r t ++ d) := by
  rw [leftover, split_div hr, Nat.add_mul, ← List.drop_drop, drop_append_leftover]
  rfl

@[simp] theorem length_streamSlice (z : Nat → Byte) (a b : Nat) : (streamSlice z a b).length = b - a := by
  simp [streamSlice]

@[simp] theorem streamSlice_self (z : Nat → Byte) (a : Nat) : streamSlice z a a = [] := by simp [streamSlice]

/-- Block i of a stream, byte by byte (R225). -/
theorem streamSlice_block (z : Nat → Byte) (r i : Nat) :
    streamSlice z (i * r) ((i + 1) * r) = (List.range r).map fun m => z (i * r + m) := by
  rw [streamSlice, Nat.succ_mul, Nat.add_sub_cancel_left]

theorem streamSlice_append (z : Nat → Byte) {a b c : Nat} (h1 : a ≤ b) (h2 : b ≤ c) :
    streamSlice z a b ++ streamSlice z b c = streamSlice z a c := by
  simp only [streamSlice]
  have : c - a = (b - a) + (c - b) := by omega
  rw [this, List.range_add, List.map_append, List.map_map]
  congr 1
  apply List.map_congr_left
  intro i _
  simp only [Function.comp_apply]
  congr 1
  omega

theorem streamSlice_take (z : Nat → Byte) {a b n : Nat} (h : a + n ≤ b) :
    (streamSlice z a b).take n = streamSlice z a (a + n) := by
  have := streamSlice_append z (a := a) (b := a + n) (c := b) (by omega) h
  rw [← this, List.take_append_of_le_length (by simp), List.take_of_length_le (by simp)]

theorem streamSlice_drop (z : Nat → Byte) {a b n : Nat} (h : a + n ≤ b) :
    (streamSlice z a b).drop n = streamSlice z (a + n) b := by
  have := streamSlice_append z (a := a) (b := a + n) (c := b) (by omega) h
  rw [← this, List.drop_append_of_le_length (by simp), List.drop_eq_nil_of_le (by simp), List.nil_append]

/-- Consecutive blocks of a stream make one slice of it. -/
theorem flatten_streamSlices (z : Nat → Byte) (r j m : Nat) :
    ((List.range m).map fun i => streamSlice z ((j + i) * r) ((j + i + 1) * r)).flatten
      = streamSlice z (j * r) ((j + m) * r) := by
  induction m with
  | zero => simp
  | succ m ih =>
    rw [List.range_succ, List.map_append, List.flatten_append, ih]
    simp only [List.map_cons, List.map_nil, List.flatten_cons, List.flatten_nil, List.append_nil]
    exact streamSlice_append z (Nat.mul_le_mul_right _ (by omega)) (Nat.mul_le_mul_right _ (by omega))

end Sys2Proof.Machine
end

