-- ==== Sys2Proof/Laws/Decode.lean ====
section
/-! SUPPORT. Laws of Decode: the header fields as arithmetic on be(p[0:4]), and what one accepted or rejected packet says. -/

namespace Sys2Proof

theorem be_take_four_lt (p : Bytes) : be (p.take 4) < 2 ^ 32 := by
  have h := be_lt (p.take 4)
  have h4 : (p.take 4).length ≤ 4 := by simp
  calc be (p.take 4) < 256 ^ (p.take 4).length := h
    _ ≤ 256 ^ 4 := Nat.pow_le_pow_right (by norm_num) h4
    _ = 2 ^ 32 := by norm_num

theorem headerOf_toNat (p : Bytes) : (headerOf p).toNat = be (p.take 4) := by
  rw [headerOf, slice_zero, BitVec.toNat_ofNat, Nat.mod_eq_of_lt (be_take_four_lt p)]

theorem headerOf_opc (p : Bytes) :
    ((headerOf p).extractLsb' 0 8).toNat = be (p.take 4) % 256 := by
  simp [BitVec.extractLsb'_toNat, headerOf_toNat]

theorem headerOf_pset (p : Bytes) :
    ((headerOf p).extractLsb' 8 1).toNat = be (p.take 4) / 256 % 2 := by
  simp [BitVec.extractLsb'_toNat, headerOf_toNat, Nat.shiftRight_eq_div_pow]

theorem headerOf_rsvd (p : Bytes) :
    ((headerOf p).extractLsb' 9 23).toNat = be (p.take 4) / 512 := by
  have := be_take_four_lt p
  simp only [BitVec.extractLsb'_toNat, headerOf_toNat, Nat.shiftRight_eq_div_pow]
  omega

theorem argOf_eq (p : Bytes) : argOf p = be ((p.drop 4).take 8) := rfl

theorem rsvd_eq_zero (p : Bytes) : (headerOf p).extractLsb' 9 23 = 0 ↔ be (p.take 4) / 512 = 0 := by
  rw [← headerOf_rsvd, ← BitVec.toNat_inj]; rfl

theorem pset_eq_zero (p : Bytes) : (headerOf p).extractLsb' 8 1 = 0 ↔ be (p.take 4) / 256 % 2 = 0 := by
  rw [← headerOf_pset, ← BitVec.toNat_inj]; rfl

theorem opcodeOf_eq_some {opc : BitVec 8} {op : Opcode} : opcodeOf opc = some op ↔ opc = op.code := by
  constructor
  · intro h
    unfold opcodeOf at h
    split at h <;> cases h <;> (apply BitVec.eq_of_toNat_eq; simpa [Opcode.code] using ‹opc.toNat = _›)
  · rintro rfl; cases op <;> rfl

theorem opcodeOf_eq_none {opc : BitVec 8} :
    opcodeOf opc = none ↔ ¬ (1 ≤ opc.toNat ∧ opc.toNat ≤ 5) := by
  unfold opcodeOf
  split <;> simp_all
  omega

@[simp] theorem ParamSet.ofBit_bit (ps : ParamSet) : ParamSet.ofBit ps.bit = ps := by cases ps <;> rfl

theorem ParamSet.bit_ofBit (b : BitVec 1) : (ParamSet.ofBit b).bit = b := by
  revert b; decide

theorem headerWord_toNat (op : Opcode) (b : BitVec 1) :
    (headerWord op b).toNat = op.code.toNat + 256 * b.toNat := by
  cases op <;> revert b <;> decide

theorem Opcode.code_lt (op : Opcode) : op.code.toNat < 256 := op.code.isLt

/-- A packet whose header has no reserved bit, an assigned opcode and a legal PSET goes to the opcode's shape check. -/
theorem decode_of_header {p : Bytes} {op : Opcode} {b : BitVec 1} (h4 : 4 ≤ p.length)
    (hh : be (p.take 4) = (headerWord op b).toNat) (hb : b = 0 ∨ op = .construct) :
    decode p = decodeBody op (ParamSet.ofBit b) p := by
  rw [headerWord_toNat] at hh
  have hc := op.code_lt
  have hbl := b.isLt
  have hopc : (headerOf p).extractLsb' 0 8 = op.code := by
    apply BitVec.eq_of_toNat_eq; rw [headerOf_opc]; omega
  have hps : (headerOf p).extractLsb' 8 1 = b := by
    apply BitVec.eq_of_toNat_eq; rw [headerOf_pset]; omega
  have hr : (headerOf p).extractLsb' 9 23 = 0 := by rw [rsvd_eq_zero]; omega
  unfold decode
  rw [if_neg (by omega), if_neg (by simp [hr]), opcodeOf_eq_some.2 hopc, hps]
  simp only []
  rw [if_neg]
  rintro ⟨h1, h2⟩
  exact hb.elim h1 h2

/-- What an accepted packet says: its header has no reserved bit, its opcode is assigned, PSET is 0 but for CONSTRUCT, and the opcode's
shape check accepts it. -/
theorem decode_ok {p : Bytes} {i : Instr} (h : decode p = .ok i) :
    ∃ op b, 4 ≤ p.length ∧ be (p.take 4) = (headerWord op b).toNat ∧ (b = 0 ∨ op = .construct) ∧
      decodeBody op (ParamSet.ofBit b) p = .ok i := by
  unfold decode at h
  split at h
  · cases h
  split at h
  · cases h
  split at h
  · cases h
  rename_i h4 h9 _ op hop
  split at h
  · cases h
  rename_i hps
  refine ⟨op, (headerOf p).extractLsb' 8 1, by omega, ?_, ?_, h⟩
  · have hopc := congrArg BitVec.toNat (opcodeOf_eq_some.1 hop)
    rw [headerOf_opc] at hopc
    rw [ne_eq, not_not, rsvd_eq_zero] at h9
    rw [headerWord_toNat, headerOf_pset, ← hopc]
    omega
  · by_contra hc
    rw [not_or] at hc
    exact hps hc

end Sys2Proof
end

