-- ==== Sys2Proof/Laws/State.lean ====
section
/-! SUPPORT. What each update of the state leaves in each field: one lemma per field per update. -/

namespace Sys2Proof.Machine

@[simp] theorem State.reject_phase (c : ErrCode) (s : State) : (State.reject c s).phase = s.phase := rfl
@[simp] theorem State.reject_pset (c : ErrCode) (s : State) : (State.reject c s).pset = s.pset := rfl
@[simp] theorem State.reject_buf (c : ErrCode) (s : State) : (State.reject c s).buf = s.buf := rfl
@[simp] theorem State.reject_pend (c : ErrCode) (s : State) : (State.reject c s).pend = s.pend := rfl
@[simp] theorem State.reject_sp (c : ErrCode) (s : State) : (State.reject c s).sp = s.sp := rfl
@[simp] theorem State.reject_err (c : ErrCode) (s : State) : (State.reject c s).err = c := rfl
@[simp] theorem State.reject_sticky (c : ErrCode) (s : State) : (State.reject c s).sticky = true := rfl
@[simp] theorem State.reject_out (c : ErrCode) (s : State) : (State.reject c s).out = s.out := rfl
@[simp] theorem State.reject_outMark (c : ErrCode) (s : State) : (State.reject c s).outMark = s.outMark := rfl
@[simp] theorem State.reject_calls (c : ErrCode) (s : State) : (State.reject c s).calls = s.calls := rfl
@[simp] theorem State.reject_statusReads (c : ErrCode) (s : State) : (State.reject c s).statusReads = s.statusReads := rfl
@[simp] theorem State.reject_inputs (c : ErrCode) (s : State) : (State.reject c s).inputs = s.inputs := rfl
@[simp] theorem State.reject_cfg (c : ErrCode) (s : State) : (State.reject c s).cfg = s.cfg := rfl

@[simp] theorem State.complete_phase (s : State) : s.complete.phase = s.phase := rfl
@[simp] theorem State.complete_pset (s : State) : s.complete.pset = s.pset := rfl
@[simp] theorem State.complete_buf (s : State) : s.complete.buf = s.buf := rfl
@[simp] theorem State.complete_pend (s : State) : s.complete.pend = s.pend := rfl
@[simp] theorem State.complete_sp (s : State) : s.complete.sp = s.sp := rfl
@[simp] theorem State.complete_err (s : State) : s.complete.err = .ok := rfl
@[simp] theorem State.complete_sticky (s : State) : s.complete.sticky = s.sticky := rfl
@[simp] theorem State.complete_out (s : State) : s.complete.out = s.out := rfl
@[simp] theorem State.complete_outMark (s : State) : s.complete.outMark = s.outMark := rfl
@[simp] theorem State.complete_calls (s : State) : s.complete.calls = s.calls := rfl
@[simp] theorem State.complete_statusReads (s : State) : s.complete.statusReads = s.statusReads := rfl
@[simp] theorem State.complete_inputs (s : State) : s.complete.inputs = s.inputs := rfl
@[simp] theorem State.complete_cfg (s : State) : s.complete.cfg = s.cfg := rfl

@[simp] theorem State.putPort_phase (q : Port) (s : State) : (State.putPort q s).phase = s.phase := rfl
@[simp] theorem State.putPort_pset (q : Port) (s : State) : (State.putPort q s).pset = s.pset := rfl
@[simp] theorem State.putPort_buf (q : Port) (s : State) : (State.putPort q s).buf = s.buf := rfl
@[simp] theorem State.putPort_pend (q : Port) (s : State) : (State.putPort q s).pend = s.pend := rfl
@[simp] theorem State.putPort_sp (q : Port) (s : State) : (State.putPort q s).sp = some q.inst := rfl
@[simp] theorem State.putPort_err (q : Port) (s : State) : (State.putPort q s).err = s.err := rfl
@[simp] theorem State.putPort_sticky (q : Port) (s : State) : (State.putPort q s).sticky = s.sticky := rfl
@[simp] theorem State.putPort_out (q : Port) (s : State) : (State.putPort q s).out = s.out := rfl
@[simp] theorem State.putPort_outMark (q : Port) (s : State) : (State.putPort q s).outMark = s.outMark := rfl
@[simp] theorem State.putPort_calls (q : Port) (s : State) : (State.putPort q s).calls = q.calls := rfl
@[simp] theorem State.putPort_statusReads (q : Port) (s : State) : (State.putPort q s).statusReads = s.statusReads := rfl
@[simp] theorem State.putPort_inputs (q : Port) (s : State) : (State.putPort q s).inputs = s.inputs := rfl
@[simp] theorem State.putPort_cfg (q : Port) (s : State) : (State.putPort q s).cfg = s.cfg := rfl

@[simp] theorem State.recordStatusRead_phase (s : State) : s.recordStatusRead.phase = s.phase := rfl
@[simp] theorem State.recordStatusRead_pset (s : State) : s.recordStatusRead.pset = s.pset := rfl
@[simp] theorem State.recordStatusRead_buf (s : State) : s.recordStatusRead.buf = s.buf := rfl
@[simp] theorem State.recordStatusRead_pend (s : State) : s.recordStatusRead.pend = s.pend := rfl
@[simp] theorem State.recordStatusRead_sp (s : State) : s.recordStatusRead.sp = s.sp := rfl
@[simp] theorem State.recordStatusRead_err (s : State) : s.recordStatusRead.err = s.err := rfl
@[simp] theorem State.recordStatusRead_sticky (s : State) : s.recordStatusRead.sticky = s.sticky := rfl
@[simp] theorem State.recordStatusRead_out (s : State) : s.recordStatusRead.out = s.out := rfl
@[simp] theorem State.recordStatusRead_outMark (s : State) : s.recordStatusRead.outMark = s.outMark := rfl
@[simp] theorem State.recordStatusRead_calls (s : State) : s.recordStatusRead.calls = s.calls := rfl
@[simp] theorem State.recordStatusRead_statusReads (s : State) : s.recordStatusRead.statusReads = s.statusReads ++ [s.status] := rfl
@[simp] theorem State.recordStatusRead_inputs (s : State) : s.recordStatusRead.inputs = s.inputs := rfl
@[simp] theorem State.recordStatusRead_cfg (s : State) : s.recordStatusRead.cfg = s.cfg := rfl

@[simp] theorem State.hardReset_phase (s : State) : s.hardReset.phase = .unconstructed := rfl
@[simp] theorem State.hardReset_pset (s : State) : s.hardReset.pset = .kmac128 := rfl
@[simp] theorem State.hardReset_buf (s : State) : s.hardReset.buf = [] := rfl
@[simp] theorem State.hardReset_pend (s : State) : s.hardReset.pend = [] := rfl
@[simp] theorem State.hardReset_sp (s : State) : s.hardReset.sp = none := rfl
@[simp] theorem State.hardReset_err (s : State) : s.hardReset.err = .ok := rfl
@[simp] theorem State.hardReset_sticky (s : State) : s.hardReset.sticky = false := rfl
@[simp] theorem State.hardReset_out (s : State) : s.hardReset.out = s.out := rfl
@[simp] theorem State.hardReset_outMark (s : State) : s.hardReset.outMark = s.out.length := rfl
@[simp] theorem State.hardReset_calls (s : State) : s.hardReset.calls = s.calls := rfl
@[simp] theorem State.hardReset_statusReads (s : State) : s.hardReset.statusReads = s.statusReads := rfl
@[simp] theorem State.hardReset_inputs (s : State) : s.hardReset.inputs = s.inputs := rfl
@[simp] theorem State.hardReset_cfg (s : State) : s.hardReset.cfg = s.cfg := rfl

@[simp] theorem Port.absorb_inst (q : Port) (b : Bytes) :
    (q.absorb b).inst = { q.inst with absorbed := q.inst.absorbed ++ b } := rfl
@[simp] theorem Port.absorb_calls (q : Port) (b : Bytes) : (q.absorb b).calls = q.calls ++ [.absorb b] := rfl
@[simp] theorem Port.squeeze_inst (ps : ParamSet) (q : Port) :
    (q.squeeze ps).inst = { q.inst with squeezes := q.inst.squeezes + 1 } := rfl
@[simp] theorem Port.squeeze_calls (ps : ParamSet) (q : Port) :
    (q.squeeze ps).calls = q.calls ++ [.squeeze (q.answer ps)] := rfl
@[simp] theorem Port.absorb_collab (q : Port) (b : Bytes) : (q.absorb b).collab = q.collab := rfl
@[simp] theorem Port.squeeze_collab (ps : ParamSet) (q : Port) : (q.squeeze ps).collab = q.collab := rfl
@[simp] theorem Port.opened_inst (ps : ParamSet) (custom : Bytes) (calls : List SpCall) (c : Collaborator) :
    (Port.opened ps custom calls c).inst = { custom := custom, absorbed := [], squeezes := 0 } := rfl
@[simp] theorem Port.opened_calls (ps : ParamSet) (custom : Bytes) (calls : List SpCall) (c : Collaborator) :
    (Port.opened ps custom calls c).calls = calls ++ [.construct domainLabel custom ps] := rfl
@[simp] theorem Port.opened_collab (ps : ParamSet) (custom : Bytes) (calls : List SpCall) (c : Collaborator) :
    (Port.opened ps custom calls c).collab = c := rfl

end Sys2Proof.Machine
end

