-- ==== Sys2Proof/Laws/Port.lean ====
section
/-! SUPPORT. What the operations on the collaborator port do, in closed form: a list of SpAbsorb calls, FINALIZE_FIXED's squeeze loop and READ's loop. -/

namespace Sys2Proof.Machine

theorem Port.absorbAll_inst (q : Port) (bs : List Bytes) :
    (q.absorbAll bs).inst = { q.inst with absorbed := q.inst.absorbed ++ bs.flatten } := by
  induction bs generalizing q with
  | nil => simp [Port.absorbAll]
  | cons b bs ih =>
    have := ih (q.absorb b)
    simp only [Port.absorbAll, List.foldl_cons] at this ⊢
    rw [this]
    simp

theorem Port.absorbAll_calls (q : Port) (bs : List Bytes) :
    (q.absorbAll bs).calls = q.calls ++ bs.map .absorb := by
  induction bs generalizing q with
  | nil => simp [Port.absorbAll]
  | cons b bs ih =>
    have := ih (q.absorb b)
    simp only [Port.absorbAll, List.foldl_cons] at this ⊢
    rw [this]
    simp

@[simp] theorem Port.absorbAll_collab (q : Port) (bs : List Bytes) : (q.absorbAll bs).collab = q.collab := by
  induction bs generalizing q with
  | nil => rfl
  | cons b bs ih => exact ih (q.absorb b)

/-- A list of SpAbsorb calls, whole. -/
theorem Port.absorbAll_eq (q : Port) (bs : List Bytes) :
    q.absorbAll bs =
      { inst := { q.inst with absorbed := q.inst.absorbed ++ bs.flatten }, calls := q.calls ++ bs.map .absorb
        collab := q.collab } := by
  rw [← Port.absorbAll_inst, ← Port.absorbAll_calls, ← Port.absorbAll_collab q bs]

theorem Port.absorbAll_append (q : Port) (bs cs : List Bytes) :
    q.absorbAll (bs ++ cs) = (q.absorbAll bs).absorbAll cs := by
  simp [Port.absorbAll, List.foldl_append]

/-- The pieces of FinalAbsorb make up the whole of t (R170, R173). -/
theorem flatten_finalPieces (r : Nat) (t : Bytes) : (finalPieces r t).flatten = t := by
  unfold finalPieces
  split
  · simpa using fullBlocks_append_leftover r t
  · rename_i h
    have hl : leftover r t = [] := by
      rw [← List.length_eq_zero_iff, length_leftover]; omega
    have := fullBlocks_append_leftover r t
    rw [hl] at this
    simpa using this

/-- With fewer than two blocks there is at most one full block and then at most one partial one (R170). -/
theorem finalPieces_of_lt {r : Nat} {t : Bytes} (hr : 0 < r) (h : t.length < 2 * r) :
    finalPieces r t = (if r ≤ t.length then [t.take r] else []) ++
      (if t.length % r ≠ 0 then [t.drop (t.length / r * r)] else []) := by
  unfold finalPieces
  congr 1
  split
  · have : t.length / r = 1 := by
      rw [Nat.div_eq_iff hr]; constructor <;> omega
    simp [fullBlocks_eq, this, List.range_succ]
  · exact fullBlocks_of_lt (by omega)

/-- The same as calls on the port. -/
theorem map_finalPieces_of_lt {r : Nat} {t : Bytes} (hr : 0 < r) (h : t.length < 2 * r) :
    (finalPieces r t).map SpCall.absorb = (if r ≤ t.length then [.absorb (t.take r)] else []) ++
      (if t.length % r ≠ 0 then [.absorb (t.drop (t.length / r * r))] else []) := by
  rw [finalPieces_of_lt hr h, List.map_append]
  split_ifs <;> rfl

@[simp] theorem length_answer (ps : ParamSet) (p : SpRec) : (p.answer ps).length = rate ps := by
  simp [SpRec.answer, Nat.succ_mul]

/-- Whatever the collaborator, an answer has R bytes (R224). -/
@[simp] theorem Port.length_answer (ps : ParamSet) (q : Port) : (q.answer ps).length = rate ps := by
  unfold Port.answer
  split <;> simp

/-- The answers to the next m SpSqueeze calls, in order. -/
def Port.answers (ps : ParamSet) : Nat → Port → List Bytes
  | 0, _ => []
  | m + 1, q => q.answer ps :: Port.answers ps m (q.squeeze ps)

@[simp] theorem Port.length_answers (ps : ParamSet) (m : Nat) (q : Port) : (q.answers ps m).length = m := by
  induction m generalizing q with
  | zero => rfl
  | succ m ih => simp [Port.answers, ih]

theorem Port.length_of_mem_answers {ps : ParamSet} {m : Nat} {q : Port} {a : Bytes} (h : a ∈ q.answers ps m) :
    a.length = rate ps := by
  induction m generalizing q with
  | zero => cases h
  | succ m ih =>
    rcases List.mem_cons.1 h with rfl | h
    · exact q.length_answer ps
    · exact ih h

@[simp] theorem Port.length_flatten_answers (ps : ParamSet) (m : Nat) (q : Port) :
    (q.answers ps m).flatten.length = m * rate ps := by
  induction m generalizing q with
  | zero => simp [Port.answers]
  | succ m ih => rw [Port.answers, List.flatten_cons, List.length_append, Port.length_answer, ih, Nat.succ_mul, Nat.add_comm]

/-- A collaborator that meets R225 answers consecutive blocks of Z. -/
theorem Port.answers_of_meets {ps : ParamSet} {q : Port} (hc : q.collab = .meetsContract) (m : Nat) :
    q.answers ps m = (List.range m).map fun i =>
      streamSlice (q.inst.stream ps) ((q.inst.squeezes + i) * rate ps) ((q.inst.squeezes + i + 1) * rate ps) := by
  induction m generalizing q with
  | zero => rfl
  | succ m ih =>
    rw [Port.answers, ih (q := q.squeeze ps) hc, List.range_succ_eq_map, List.map_cons, List.map_map]
    congr 1
    · simp [Port.answer, hc, SpRec.answer]
    · apply List.map_congr_left
      intro i _
      simp only [Function.comp_apply, Port.squeeze_inst, SpRec.stream]
      congr 2 <;> omega

theorem Port.flatten_answers_of_meets {ps : ParamSet} {q : Port} (hc : q.collab = .meetsContract) (m : Nat) :
    (q.answers ps m).flatten =
      streamSlice (q.inst.stream ps) (q.inst.squeezes * rate ps) ((q.inst.squeezes + m) * rate ps) := by
  rw [Port.answers_of_meets hc, flatten_streamSlices]

/-- A collaborator that departs from R225 answers free bytes, fresh after every call (R226). -/
theorem Port.answers_of_departs {ps : ParamSet} {q : Port} (hc : q.collab = .departs) {m i : Nat} (hi : i < m) :
    (q.answers ps m)[i]? = some ((List.range (rate ps)).map
      (Config.departedByte (q.calls ++ ((q.answers ps m).take i).map .squeeze))) := by
  induction m generalizing q i with
  | zero => omega
  | succ m ih =>
    cases i with
    | zero => simp [Port.answers, Port.answer, hc]
    | succ i =>
      rw [Port.answers, List.getElem?_cons_succ, ih (q := q.squeeze ps) hc (by omega)]
      simp

/-- An instance after m more SpSqueeze calls (R224). -/
def Port.squeezed (ps : ParamSet) (m : Nat) (q : Port) : Port where
  inst := { q.inst with squeezes := q.inst.squeezes + m }
  calls := q.calls ++ (q.answers ps m).map .squeeze
  collab := q.collab

@[simp] theorem Port.squeezed_zero (ps : ParamSet) (q : Port) : q.squeezed ps 0 = q := by
  simp [Port.squeezed, Port.answers]

theorem Port.squeeze_squeezed (ps : ParamSet) (m : Nat) (q : Port) :
    (q.squeeze ps).squeezed ps m = q.squeezed ps (m + 1) := by
  simp [Port.squeezed, Port.answers, Nat.add_assoc, Nat.add_comm 1]

/-- FINALIZE_FIXED's loop squeezes exactly as many blocks as are missing (R171). -/
theorem squeezeUntil_eq (ps : ParamSet) (len fuel : Nat) (o : Bytes) (q : Port)
    (hf : (len - o.length + rate ps - 1) / rate ps ≤ fuel) :
    squeezeUntil ps len fuel o q =
      (o ++ (q.answers ps ((len - o.length + rate ps - 1) / rate ps)).flatten,
        q.squeezed ps ((len - o.length + rate ps - 1) / rate ps)) := by
  have hr := rate_pos ps
  induction fuel generalizing o q with
  | zero =>
    have h0 : (len - o.length + rate ps - 1) / rate ps = 0 := Nat.le_zero.1 hf
    simp [squeezeUntil, h0, Port.answers]
  | succ fuel ih =>
    unfold squeezeUntil
    split
    · rename_i hlt
      have hm : (len - o.length + rate ps - 1) / rate ps
          = (len - (o ++ q.answer ps).length + rate ps - 1) / rate ps + 1 := by
        rw [List.length_append, Port.length_answer, ← Nat.add_div_right _ hr]
        by_cases hb : rate ps ≤ len - o.length
        · congr 1; omega
        · rw [Nat.div_eq_of_lt_le (m := len - o.length + rate ps - 1) (k := 1) (by omega) (by omega)]
          rw [Nat.div_eq_of_lt_le (k := 1) (by omega) (by omega)]
      rw [ih (o ++ q.answer ps) (q.squeeze ps) (by omega), hm]
      rw [Port.squeeze_squeezed, List.append_assoc]
      rfl
    · have h0 : (len - o.length + rate ps - 1) / rate ps = 0 := by
        rw [Nat.div_eq_of_lt]; omega
      simp [h0, Port.answers]

/-- With no byte yet, L turns of fuel suffice, and ceil(L/R) blocks are squeezed (R171). -/
theorem squeezeUntil_nil (ps : ParamSet) (len : Nat) (q : Port) :
    squeezeUntil ps len len [] q =
      ((q.answers ps ((len + rate ps - 1) / rate ps)).flatten,
        q.squeezed ps ((len + rate ps - 1) / rate ps)) := by
  have hr := rate_pos ps
  have := squeezeUntil_eq ps len len [] q (by
    rw [Nat.div_le_iff_le_mul_add_pred hr]
    simp only [List.length_nil, Nat.sub_zero]
    have : len ≤ rate ps * len := Nat.le_mul_of_pos_left _ hr
    omega)
  simpa using this

/-- How many blocks READ(n) squeezes with q bytes pending: none if n ≤ q, else ceil((n - q)/R) (R191). -/
def readBlocks (ps : ParamSet) (q n : Nat) : Nat := (n - q + rate ps - 1) / rate ps

theorem readBlocks_of_le {ps : ParamSet} {q n : Nat} (h : n ≤ q) : readBlocks ps q n = 0 := by
  have hr := rate_pos ps
  rw [readBlocks, Nat.div_eq_of_lt]; omega

theorem readBlocks_nil_succ (ps : ParamSet) (n : Nat) :
    readBlocks ps 0 (n + 1) = readBlocks ps (rate ps - 1) n + 1 := by
  have hr := rate_pos ps
  unfold readBlocks
  rw [← Nat.add_div_right _ hr]
  by_cases hb : rate ps - 1 ≤ n
  · congr 1; omega
  · rw [Nat.div_eq_of_lt_le (k := 1) (by omega) (by omega), Nat.div_eq_of_lt_le (k := 1) (by omega) (by omega)]

/-- The bytes READ(n) has at hand: those pending, then the blocks it squeezes (R190). -/
def Reader.supply (ps : ParamSet) (n : Nat) (x : Reader) : Bytes :=
  x.pend ++ (x.port.answers ps (readBlocks ps x.pend.length n)).flatten

theorem Reader.le_length_supply (ps : ParamSet) (n : Nat) (x : Reader) : n ≤ (x.supply ps n).length := by
  have hr := rate_pos ps
  have h := Nat.div_add_mod (n - x.pend.length + rate ps - 1) (rate ps)
  have hlt := Nat.mod_lt (n - x.pend.length + rate ps - 1) hr
  rw [Reader.supply, List.length_append, Port.length_flatten_answers, readBlocks, Nat.mul_comm]
  omega

/-- READ's loop in closed form (R190, R191). -/
theorem Reader.emitMany_eq (ps : ParamSet) (n : Nat) (x : Reader) :
    Reader.emitMany ps n x =
      { pend := (x.supply ps n).drop n, out := x.out ++ (x.supply ps n).take n,
        port := x.port.squeezed ps (readBlocks ps x.pend.length n) } := by
  induction n generalizing x with
  | zero =>
    simp [Reader.emitMany, Reader.supply, readBlocks_of_le, Port.answers]
  | succ n ih =>
    rw [Reader.emitMany, ih]
    obtain ⟨pend, out, port⟩ := x
    cases pend with
    | nil =>
      have hne : port.answer ps ≠ [] := by
        rw [← List.length_pos_iff, Port.length_answer]; exact rate_pos ps
      obtain ⟨b, rest, hb⟩ := List.exists_cons_of_ne_nil hne
      have hlen : rest.length = rate ps - 1 := by
        have := Port.length_answer ps port
        rw [hb, List.length_cons] at this
        omega
      simp only [Reader.refill, Reader.emitOne, Reader.supply, hb, List.take_succ_cons, List.take_zero,
        List.drop_succ_cons, List.drop_zero, hlen, List.length_nil, readBlocks_nil_succ, Port.squeeze_squeezed,
        List.nil_append, Port.answers, List.flatten_cons, List.cons_append, List.append_assoc]
    | cons b rest =>
      simp only [Reader.refill, Reader.emitOne, Reader.supply, List.take_succ_cons, List.take_zero,
        List.drop_succ_cons, List.drop_zero, List.length_cons, List.cons_append, List.append_assoc]
      have : readBlocks ps (rest.length + 1) (n + 1) = readBlocks ps rest.length n := by
        simp [readBlocks]
      rw [this]
      simp

/-- READ's loop keeps the collaborator on the port (R253). -/
@[simp] theorem Reader.emitMany_collab (ps : ParamSet) (n : Nat) (x : Reader) :
    (Reader.emitMany ps n x).port.collab = x.port.collab := by
  rw [Reader.emitMany_eq]
  rfl

theorem Reader.emitMany_add (ps : ParamSet) (m n : Nat) (x : Reader) :
    Reader.emitMany ps (m + n) x = Reader.emitMany ps n (Reader.emitMany ps m x) := by
  induction m generalizing x with
  | zero => simp [Reader.emitMany]
  | succ m ih => rw [Nat.succ_add, Reader.emitMany, Reader.emitMany, ih]

end Sys2Proof.Machine
end

