-- ==== Sys2Proof/Laws/Exec.lean ====
section
/-! SUPPORT. What each command and one step can do: the commands in closed form, and one case analysis per command. -/

namespace Sys2Proof.Machine

theorem withPort_some {s : State} {p : SpRec} (h : s.sp = some p) (body : Port → State) :
    withPort s body = .next (body { inst := p, calls := s.calls, collab := s.cfg.collab }) := by
  simp [withPort, h]

theorem withPort_next {s t : State} {body : Port → State} (h : withPort s body = .next t) :
    ∃ p, s.sp = some p ∧ t = body { inst := p, calls := s.calls, collab := s.cfg.collab } := by
  unfold withPort at h
  split at h
  · cases h
  · rename_i p hp
    cases h
    exact ⟨p, hp, rfl⟩

theorem encodable_iff {x lim : Nat} : encodable x lim = true ↔ nbytes x ≤ lim := by simp [encodable]

theorem constructFailure_none {c : Params} {key custom : Bytes} :
    constructFailure c key custom = none ↔
      nbytes (8 * key.length) ≤ c.encLimit ∧ nbytes (8 * custom.length) ≤ c.encLimit ∧
        c.minKeyBytes ≤ key.length := by
  unfold constructFailure
  simp only [encodable_iff, bitLength]
  split_ifs <;> simp_all

theorem constructFailure_getD (s : State) (ps : ParamSet) (key custom : Bytes) :
    (constructFailure s.cfg key custom).getD .ok = commandErr (.construct ps key custom) s := by
  simp only [constructFailure, commandErr, encodable_iff, bitLength, not_le]
  split_ifs <;> rfl

theorem constructFailure_ne_ok {c : Params} {key custom : Bytes} {e : ErrCode}
    (h : constructFailure c key custom = some e) : e ≠ .ok := by
  unfold constructFailure at h
  split_ifs at h <;> cases h <;> simp

theorem flatten_keyBlocks (key : Bytes) (ps : ParamSet) :
    (fullBlocks (rate ps) (keyBlock key ps)).flatten = keyBlock key ps := by
  have h := fullBlocks_append_leftover (rate ps) (keyBlock key ps)
  have hl : leftover (rate ps) (keyBlock key ps) = [] := by
    rw [← List.length_eq_zero_iff, length_leftover, keyBlock_length_mod]
  rw [hl, List.append_nil] at h
  exact h

/-- An accepted CONSTRUCT, field by field (R140). -/
theorem beginInstance_eq (ps : ParamSet) (key custom : Bytes) (s : State) :
    beginInstance ps key custom s =
      { s with
        phase := .absorbing, pset := ps, buf := [], pend := [], err := .ok
        sp := some { custom := custom, absorbed := keyBlock key ps, squeezes := 0 }
        calls := s.calls ++ .construct domainLabel custom ps ::
          (fullBlocks (rate ps) (keyBlock key ps)).map .absorb } := by
  simp [beginInstance, State.complete, State.putPort, Port.absorbAll_inst, Port.absorbAll_calls, flatten_keyBlocks]

theorem execConstruct_accepted {ps : ParamSet} {key custom : Bytes} {s : State} (h : Accepts s key custom) :
    execConstruct ps key custom s = .next (beginInstance ps key custom s) := by
  rw [execConstruct, constructFailure_none.2 h]

/-- CONSTRUCT either rejects with its first failing check or begins an instance. -/
theorem execConstruct_cases (ps : ParamSet) (key custom : Bytes) (s : State) :
    (∃ e, e ≠ .ok ∧ commandErr (.construct ps key custom) s = e ∧
        execConstruct ps key custom s = .next (s.reject e)) ∨
      (Accepts s key custom ∧ commandErr (.construct ps key custom) s = .ok ∧
        execConstruct ps key custom s = .next (beginInstance ps key custom s)) := by
  have hg := constructFailure_getD s ps key custom
  cases hc : constructFailure s.cfg key custom with
  | some e =>
    rw [hc] at hg
    exact .inl ⟨e, constructFailure_ne_ok hc, hg.symm, by simp [execConstruct, hc]⟩
  | none =>
    rw [hc] at hg
    exact .inr ⟨constructFailure_none.1 hc, hg.symm, by simp [execConstruct, hc]⟩

/-- What an accepted UPDATE leaves (R150). -/
def afterUpdate (data : Bytes) (s : State) (p : SpRec) : State :=
  { s with
    buf := leftover (rate s.pset) (s.buf ++ data), err := .ok
    sp := some { p with absorbed := p.absorbed ++ (fullBlocks (rate s.pset) (s.buf ++ data)).flatten }
    calls := s.calls ++ (fullBlocks (rate s.pset) (s.buf ++ data)).map .absorb }

theorem execUpdate_absorbing {data : Bytes} {s : State} {p : SpRec} (hp : s.phase = .absorbing) (hs : s.sp = some p) :
    execUpdate data s = .next (afterUpdate data s p) := by
  simp [execUpdate, hp, withPort_some hs, afterUpdate, State.complete, State.putPort, Port.absorbAll_inst,
    Port.absorbAll_calls]

theorem execUpdate_rejected {data : Bytes} {s : State} (hp : s.phase ≠ .absorbing) :
    execUpdate data s = .next (s.reject .sequence) := by
  simp [execUpdate, hp]

/-- What an accepted FINALIZE_FIXED leaves (R170, R171). -/
def afterFinalizeFixed (len : Nat) (s : State) (p : SpRec) : State :=
  let inst : SpRec := { p with absorbed := p.absorbed ++ (s.buf ++ fixedSuffix len) }
  let q : Port :=
    { inst := inst, calls := s.calls ++ (finalPieces (rate s.pset) (s.buf ++ fixedSuffix len)).map .absorb
      collab := s.cfg.collab }
  let n := (len + rate s.pset - 1) / rate s.pset
  { s with
    phase := .finalizedFixed, buf := [], pend := [], err := .ok
    out := s.out ++ (q.answers s.pset n).flatten.take len
    sp := some { inst with squeezes := p.squeezes + n }
    calls := (q.squeezed s.pset n).calls }

theorem le_mul_blocks {r : Nat} (hr : 0 < r) (n : Nat) : n ≤ (n + r - 1) / r * r := by
  have h := Nat.div_add_mod (n + r - 1) r
  have hlt := Nat.mod_lt (n + r - 1) hr
  rw [Nat.mul_comm]
  omega

theorem execFinalizeFixed_absorbing {len : Nat} {s : State} {p : SpRec} (hp : s.phase = .absorbing)
    (hs : s.sp = some p) (hl : len ≠ 0) :
    execFinalizeFixed len s = .next (afterFinalizeFixed len s p) := by
  simp only [execFinalizeFixed, hp, ne_eq, not_true_eq_false, if_false, hl, withPort_some hs, fixedOutput,
    Port.finalAbsorb, squeezeUntil_nil, Port.absorbAll_eq, flatten_finalPieces, afterFinalizeFixed]
  simp only [State.complete, State.putPort, Port.squeezed]

theorem execFinalizeFixed_rejected {len : Nat} {s : State} (hp : s.phase ≠ .absorbing) :
    execFinalizeFixed len s = .next (s.reject .sequence) := by
  simp [execFinalizeFixed, hp]

theorem execFinalizeFixed_zero {s : State} (hp : s.phase = .absorbing) :
    execFinalizeFixed 0 s = .next (s.reject .badOutlen) := by
  simp [execFinalizeFixed, hp]

/-- What an accepted FINALIZE_XOF leaves (R170, R172). -/
def afterFinalizeXof (s : State) (p : SpRec) : State :=
  { s with
    phase := .squeezing, buf := [], pend := [], err := .ok
    sp := some { p with absorbed := p.absorbed ++ (s.buf ++ xofSuffix) }
    calls := s.calls ++ (finalPieces (rate s.pset) (s.buf ++ xofSuffix)).map .absorb }

theorem execFinalizeXof_absorbing {s : State} {p : SpRec} (hp : s.phase = .absorbing) (hs : s.sp = some p) :
    execFinalizeXof s = .next (afterFinalizeXof s p) := by
  simp [execFinalizeXof, hp, withPort_some hs, Port.finalAbsorb, afterFinalizeXof, State.complete, State.putPort,
    Port.absorbAll_inst, Port.absorbAll_calls, flatten_finalPieces]

theorem execFinalizeXof_rejected {s : State} (hp : s.phase ≠ .absorbing) :
    execFinalizeXof s = .next (s.reject .sequence) := by
  simp [execFinalizeXof, hp]

/-- The bytes READ(n) has at hand in a state: st.pend, then the blocks it squeezes (R190). -/
def readSupply (n : Nat) (s : State) (p : SpRec) : Bytes :=
  s.pend ++ (Port.answers s.pset (readBlocks s.pset s.pend.length n)
    { inst := p, calls := s.calls, collab := s.cfg.collab }).flatten

/-- What an accepted READ leaves (R190, R191). -/
def afterRead (n : Nat) (s : State) (p : SpRec) : State :=
  let q : Port := { inst := p, calls := s.calls, collab := s.cfg.collab }
  { s with
    pend := (readSupply n s p).drop n, out := s.out ++ (readSupply n s p).take n, err := .ok
    sp := some { p with squeezes := p.squeezes + readBlocks s.pset s.pend.length n }
    calls := (q.squeezed s.pset (readBlocks s.pset s.pend.length n)).calls }

theorem execRead_squeezing {n : Nat} {s : State} {p : SpRec} (hp : s.phase = .squeezing) (hs : s.sp = some p) :
    execRead n s = .next (afterRead n s p) := by
  simp [execRead, hp, withPort_some hs, Reader.emitMany_eq, Reader.supply, afterRead, readSupply, State.complete,
    State.putPort, Port.squeezed]

theorem execRead_rejected {n : Nat} {s : State} (hp : s.phase ≠ .squeezing) :
    execRead n s = .next (s.reject .sequence) := by
  simp [execRead, hp]

theorem le_length_readSupply (n : Nat) (s : State) (p : SpRec) : n ≤ (readSupply n s p).length :=
  Reader.le_length_supply s.pset n { pend := s.pend, out := s.out, port := { inst := p, calls := s.calls, collab := s.cfg.collab } }

theorem length_readSupply (n : Nat) (s : State) (p : SpRec) :
    (readSupply n s p).length = s.pend.length + readBlocks s.pset s.pend.length n * rate s.pset := by
  rw [readSupply, List.length_append, Port.length_flatten_answers]

/-- With a collaborator that meets R225, READ has st.pend and then the next blocks of Z at hand. -/
theorem readSupply_of_meets {s : State} (hc : s.cfg.collab = .meetsContract) (n : Nat) (p : SpRec) :
    readSupply n s p = s.pend ++ streamSlice (p.stream s.pset) (p.squeezes * rate s.pset)
      ((p.squeezes + readBlocks s.pset s.pend.length n) * rate s.pset) := by
  rw [readSupply, Port.flatten_answers_of_meets hc]

/-- FINALIZE_FIXED's squeezes give at least the L bytes it emits, whatever the collaborator answers (R171). -/
theorem le_length_fixedAnswers (ps : ParamSet) (len : Nat) (q : Port) :
    len ≤ (q.answers ps ((len + rate ps - 1) / rate ps)).flatten.length := by
  rw [Port.length_flatten_answers]
  exact le_mul_blocks (rate_pos ps) len

/-- With a collaborator that meets R225, FINALIZE_FIXED emits the next L bytes of Z. -/
theorem afterFinalizeFixed_out_of_meets {s : State} (hc : s.cfg.collab = .meetsContract) (len : Nat) (p : SpRec) :
    (afterFinalizeFixed len s p).out = s.out ++
      streamSlice (Config.spOut s.pset p.custom (p.absorbed ++ (s.buf ++ fixedSuffix len)))
        (p.squeezes * rate s.pset) (p.squeezes * rate s.pset + len) := by
  simp only [afterFinalizeFixed]
  rw [Port.flatten_answers_of_meets hc, streamSlice_take]
  · rfl
  · rw [Nat.add_mul]
    exact Nat.add_le_add_left (le_mul_blocks (rate_pos _) len) _

/-- Everything a command can do when it answers a next state: it rejects, writing ERR and STICKY only, or it has its effect. -/
theorem exec_next_cases {i : Instr} {s t : State} (h : exec i s = .next t) :
    (commandErr i s ≠ .ok ∧ t = s.reject (commandErr i s)) ∨
      (commandErr i s = .ok ∧
        match i with
        | .construct ps key custom => t = beginInstance ps key custom s
        | .update data => ∃ p, s.sp = some p ∧ t = afterUpdate data s p
        | .finalizeFixed len => ∃ p, s.sp = some p ∧ t = afterFinalizeFixed len s p
        | .finalizeXof => ∃ p, s.sp = some p ∧ t = afterFinalizeXof s p
        | .read n => ∃ p, s.sp = some p ∧ t = afterRead n s p) := by
  cases i with
  | construct ps key custom =>
    rcases execConstruct_cases ps key custom s with ⟨e, he, hc, hx⟩ | ⟨_, hc, hx⟩ <;>
      (simp only [exec, hx, Host.Outcome.next.injEq] at h; subst h)
    · exact .inl ⟨by rw [hc]; exact he, by rw [hc]⟩
    · exact .inr ⟨hc, rfl⟩
  | update data =>
    by_cases hp : s.phase = .absorbing
    · right
      cases hs : s.sp with
      | none => simp [exec, execUpdate, hp, withPort, hs] at h
      | some p =>
        simp only [exec, execUpdate_absorbing hp hs, Host.Outcome.next.injEq] at h
        exact ⟨by simp [commandErr, hp], p, rfl, h.symm⟩
    · left
      simp only [exec, execUpdate_rejected hp, Host.Outcome.next.injEq] at h
      simp [commandErr, hp, h]
  | finalizeFixed len =>
    by_cases hp : s.phase = .absorbing
    · by_cases hl : len = 0
      · subst hl
        left
        simp only [exec, execFinalizeFixed_zero hp, Host.Outcome.next.injEq] at h
        simp [commandErr, hp, h]
      · right
        cases hs : s.sp with
        | none => simp [exec, execFinalizeFixed, hp, withPort, hs, hl] at h
        | some p =>
          simp only [exec, execFinalizeFixed_absorbing hp hs hl, Host.Outcome.next.injEq] at h
          exact ⟨by simp [commandErr, hp, hl], p, rfl, h.symm⟩
    · left
      simp only [exec, execFinalizeFixed_rejected hp, Host.Outcome.next.injEq] at h
      simp [commandErr, hp, h]
  | finalizeXof =>
    by_cases hp : s.phase = .absorbing
    · right
      cases hs : s.sp with
      | none => simp [exec, execFinalizeXof, hp, withPort, hs] at h
      | some p =>
        simp only [exec, execFinalizeXof_absorbing hp hs, Host.Outcome.next.injEq] at h
        exact ⟨by simp [commandErr, hp], p, rfl, h.symm⟩
    · left
      simp only [exec, execFinalizeXof_rejected hp, Host.Outcome.next.injEq] at h
      simp [commandErr, hp, h]
  | read n =>
    by_cases hp : s.phase = .squeezing
    · right
      cases hs : s.sp with
      | none => simp [exec, execRead, hp, withPort, hs] at h
      | some p =>
        simp only [exec, execRead_squeezing hp hs, Host.Outcome.next.injEq] at h
        exact ⟨by simp [commandErr, hp], p, rfl, h.symm⟩
    · left
      simp only [exec, execRead_rejected hp, Host.Outcome.next.injEq] at h
      simp [commandErr, hp, h]

theorem step_idle {s : State} (h : s.inputs = []) : step s = .next s := by
  simp [step, State.takeInput, h]

theorem step_packet {s : State} {p : Bytes} {rest : List HostInput} (h : s.inputs = .packet p :: rest) :
    step s = deliver exec p { s with inputs := rest } := by
  simp [step, State.takeInput, h, perform]

theorem step_readStatus {s : State} {rest : List HostInput} (h : s.inputs = .readStatus :: rest) :
    step s = .next { s with inputs := rest }.recordStatusRead := by
  simp [step, State.takeInput, h, perform]

theorem step_reset {s : State} {rest : List HostInput} (h : s.inputs = .reset :: rest) :
    step s = .next { s with inputs := rest }.hardReset := by
  simp [step, State.takeInput, h, perform]

theorem deliver_ok {p : Bytes} {i : Instr} {s : State} (h : decode p = .ok i) : deliver exec p s = exec i s := by
  simp [deliver, h]

theorem deliver_error {p : Bytes} {e : DecodeReject} {s : State} (h : decode p = .error e) :
    deliver exec p s = .next (s.reject .illegal) := by
  simp [deliver, h]

/-- Everything one step can do when it answers a next state. -/
theorem step_next_cases {s t : State} (h : step s = .next t) :
    (s.inputs = [] ∧ t = s) ∨
      (∃ rest, s.inputs = .readStatus :: rest ∧ t = { s with inputs := rest }.recordStatusRead) ∨
      (∃ rest, s.inputs = .reset :: rest ∧ t = { s with inputs := rest }.hardReset) ∨
      (∃ p rest e, s.inputs = .packet p :: rest ∧ decode p = .error e ∧ t = { s with inputs := rest }.reject .illegal) ∨
      (∃ p rest i, s.inputs = .packet p :: rest ∧ decode p = .ok i ∧ exec i { s with inputs := rest } = .next t) := by
  cases hi : s.inputs with
  | nil =>
    rw [step_idle hi, Host.Outcome.next.injEq] at h
    exact .inl ⟨rfl, h.symm⟩
  | cons x rest =>
    cases x with
    | readStatus =>
      rw [step_readStatus hi, Host.Outcome.next.injEq] at h
      exact .inr (.inl ⟨rest, rfl, h.symm⟩)
    | reset =>
      rw [step_reset hi, Host.Outcome.next.injEq] at h
      exact .inr (.inr (.inl ⟨rest, rfl, h.symm⟩))
    | packet p =>
      rw [step_packet hi] at h
      cases hd : decode p with
      | error e =>
        rw [deliver_error hd, Host.Outcome.next.injEq] at h
        exact .inr (.inr (.inr (.inl ⟨p, rest, e, rfl, hd, h.symm⟩)))
      | ok i =>
        rw [deliver_ok hd] at h
        exact .inr (.inr (.inr (.inr ⟨p, rest, i, rfl, hd, h⟩)))

end Sys2Proof.Machine
end

