-- ==== Sys2Proof/Laws/PerInstr.lean ====
section
/-! SUPPORT. One law for all commands, constructor by constructor: the length of a command's packet. -/

namespace Sys2Proof.Laws

open Sys2Proof

/-- The packet of a command has a whole header, and the channel can carry it when the command is well formed (20_memory.md rule R60, 30_encoding.md
rule R85). -/
def PacketLength.Statement (i : Instr) : Prop :=
  4 ≤ (encode i).length ∧ (i.wf = true → (encode i).length < 2 ^ 64)

theorem PacketLength.construct (ps : ParamSet) (key custom : Bytes) :
    PacketLength.Statement (.construct ps key custom) := by
  simp only [PacketLength.Statement, encode, Instr.wf, List.length_append, length_beBytes, decide_eq_true_eq]
  omega

theorem PacketLength.update (data : Bytes) : PacketLength.Statement (.update data) := by
  simp only [PacketLength.Statement, encode, Instr.wf, List.length_append, length_beBytes, decide_eq_true_eq]
  omega

theorem PacketLength.finalizeFixed (len : Nat) : PacketLength.Statement (.finalizeFixed len) := by
  simp [PacketLength.Statement, encode]

theorem PacketLength.finalizeXof : PacketLength.Statement .finalizeXof := by
  simp [PacketLength.Statement, encode]

theorem PacketLength.read (count : Nat) : PacketLength.Statement (.read count) := by
  simp [PacketLength.Statement, encode]

end Sys2Proof.Laws
end

