-- ==== Sys2Proof/Laws/Run.lean ====
section
/-! SUPPORT. Running several steps: one step at a time, and the host's inputs as a part of the state that no command reads. -/

namespace Sys2Proof.Machine

theorem run_succ_eq (M : Host.Core) (k : Nat) (s : M.State) :
    M.run (k + 1) s =
      match M.step s with
      | .next u => M.run k u
      | .fault r => .fault r
      | .refused r => .refused r := rfl

theorem run_of_step (M : Host.Core) {k : Nat} {s u : M.State} (h : M.step s = .next u) :
    M.run (k + 1) s = M.run k u := by
  rw [run_succ_eq, h]

theorem step_of_run (M : Host.Core) {k : Nat} {s t : M.State} (h : M.run (k + 1) s = .next t) :
    ∃ u, M.step s = .next u ∧ M.run k u = .next t := by
  rw [run_succ_eq] at h
  cases hs : M.step s with
  | next u => rw [hs] at h; exact ⟨u, rfl, h⟩
  | fault f => rw [hs] at h; cases h
  | refused r => rw [hs] at h; cases h

/-- The first step of a run of this machine. -/
theorem core_run_of_step {k : Nat} {s u : State} (h : step s = .next u) :
    Host.Core.run Sys2Proof.core (k + 1) s = Host.Core.run Sys2Proof.core k u :=
  run_of_step Sys2Proof.core h

theorem step_of_core_run {k : Nat} {s t : State} (h : Host.Core.run Sys2Proof.core (k + 1) s = .next t) :
    ∃ u, step s = .next u ∧ Host.Core.run Sys2Proof.core k u = .next t :=
  step_of_run Sys2Proof.core h

/-- No command reads or writes the host's waiting inputs. -/
theorem exec_withInputs {i : Instr} {s t : State} (h : exec i s = .next t) (r : List HostInput) :
    exec i { s with inputs := r } = .next { t with inputs := r } := by
  cases i with
  | construct ps key custom =>
    simp only [exec, execConstruct, Host.Outcome.next.injEq] at h ⊢
    rw [← h]
    cases constructFailure s.cfg key custom <;> rfl
  | update data =>
    simp only [exec, execUpdate, withPort] at h ⊢
    split at h
    · cases h; simp_all; rfl
    · cases hs : s.sp <;> rw [hs] at h <;> cases h
      simp_all; rfl
  | finalizeFixed len =>
    simp only [exec, execFinalizeFixed, withPort] at h ⊢
    split at h
    · cases h; simp_all; rfl
    · split at h
      · cases h; simp_all; rfl
      · cases hs : s.sp <;> rw [hs] at h <;> cases h
        simp_all; rfl
  | finalizeXof =>
    simp only [exec, execFinalizeXof, withPort] at h ⊢
    split at h
    · cases h; simp_all; rfl
    · cases hs : s.sp <;> rw [hs] at h <;> cases h
      simp_all; rfl
  | read n =>
    simp only [exec, execRead, withPort] at h ⊢
    split at h
    · cases h; simp_all; rfl
    · cases hs : s.sp <;> rw [hs] at h <;> cases h
      simp_all; rfl

theorem execAll_next {i : Instr} {is : List Instr} {s t : State} (h : execAll (i :: is) s = .next t) :
    ∃ u, exec i s = .next u ∧ execAll is u = .next t := by
  rw [execAll] at h
  cases hx : exec i s with
  | next u => rw [hx] at h; exact ⟨u, rfl, h⟩
  | fault f => rw [hx] at h; cases h
  | refused r => rw [hx] at h; cases h

theorem execAll_append {a b : List Instr} {s t : State} (h : execAll a s = .next t) :
    execAll (a ++ b) s = execAll b t := by
  induction a generalizing s with
  | nil => cases h; rfl
  | cons i a ih =>
    obtain ⟨u, hx, ha⟩ := execAll_next h
    rw [List.cons_append, execAll, hx]
    exact ih ha

theorem execAll_withInputs {is : List Instr} {s t : State} (h : execAll is s = .next t) (r : List HostInput) :
    execAll is { s with inputs := r } = .next { t with inputs := r } := by
  induction is generalizing s with
  | nil => cases h; rfl
  | cons i is ih =>
    obtain ⟨u, hx, ha⟩ := execAll_next h
    rw [execAll, exec_withInputs hx r]
    exact ih ha

/-- Packets that decode to commands, run as steps, do what the commands do one after another. -/
theorem run_packets {cmds : List Instr} {s t : State} (hd : ∀ i ∈ cmds, decode (encode i) = .ok i)
    (hi : s.inputs = cmds.map fun i => .packet (encode i)) (h : execAll cmds s = .next t) :
    Host.Core.run Sys2Proof.core cmds.length s = .next { t with inputs := [] } := by
  induction cmds generalizing s t with
  | nil => cases h; simp only [List.map_nil] at hi; rw [← hi]; rfl
  | cons i is ih =>
    obtain ⟨u, hx, ha⟩ := execAll_next h
    rw [List.map_cons] at hi
    have hstep := step_packet hi
    rw [deliver_ok (hd i (by simp)), exec_withInputs hx] at hstep
    rw [List.length_cons, core_run_of_step hstep]
    exact ih (t := { t with inputs := is.map fun i => .packet (encode i) }) (fun j hj => hd j (by simp [hj])) rfl
      (execAll_withInputs ha _)

end Sys2Proof.Machine
end

