-- ==== Sys2Proof/Tests/Slice0.lean ====
section
/-! SUPPORT. The model's own tests: expected values from spec/ (95_test_vectors.md, 30_encoding.md rule R91, 40_byte_encoding.md), and for every statement with hypotheses a concrete state and operands that meet them all. -/

namespace Sys2Proof.Tests

open Sys2Proof Sys2Proof.Machine

/-! ### Helpers -/

/-- The state an outcome goes on in, if it goes on. -/
def after (o : Host.Outcome State Fault Refusal) : Option State :=
  match o with
  | .next t => some t
  | .fault _ => none
  | .refused _ => none

/-- The state after reset with given parameters (R5), so that nothing depends on the open MIN_KEY_BYTES, and a collaborator that meets R225. -/
def fresh (encLimit minKey : Nat) : State :=
  { State.reset with cfg := { encLimit := encLimit, minKeyBytes := minKey, collab := .meetsContract } }

/-- An instance with the empty key that holds n zero bytes in its buffer. -/
def absorbing (ps : ParamSet) (n : Nat) : State :=
  { fresh 255 0 with
    phase := .absorbing, pset := ps, buf := zeros n
    sp := some { custom := [], absorbed := keyBlock [] ps, squeezes := 0 }
    calls := .construct domainLabel [] ps :: (fullBlocks (rate ps) (keyBlock [] ps)).map .absorb }

/-- The collaborator record of a finalized instance with the empty key and no message. -/
def finalRec (ps : ParamSet) (suffix : Bytes) (j : Nat) : SpRec :=
  { custom := [], absorbed := keyBlock [] ps ++ suffix, squeezes := j }

/-- That instance after FINALIZE_FIXED 1. -/
def fixed (ps : ParamSet) : State :=
  { fresh 255 0 with
    phase := .finalizedFixed, pset := ps, sp := some (finalRec ps (fixedSuffix 1) 1)
    out := streamSlice ((finalRec ps (fixedSuffix 1) 1).stream ps) 0 1 }

/-- That instance after FINALIZE_XOF and a READ that left n bytes pending of its first block. -/
def squeezing (ps : ParamSet) (n : Nat) : State :=
  { fresh 255 0 with
    phase := .squeezing, pset := ps, sp := some (finalRec ps xofSuffix 1)
    pend := streamSlice ((finalRec ps xofSuffix 1).stream ps) (rate ps - n) (rate ps)
    out := streamSlice ((finalRec ps xofSuffix 1).stream ps) 0 (rate ps - n) }

/-- A state whose collaborator departs from R225. -/
def departing (s : State) : State := { s with cfg := { s.cfg with collab := .departs } }

/-- A state with inputs waiting. -/
def sending (s : State) (inputs : List HostInput) : State := { s with inputs := inputs }

/-- How many bytes each SpAbsorb of a history got, and 0 for an SpSqueeze. -/
def callSizes (s : State) : List Nat :=
  s.calls.filterMap fun c =>
    match c with
    | .construct _ _ _ => none
    | .absorb b => some b.length
    | .squeeze _ => some 0

/-! ### WellFormed refuses what no packet can carry -/

theorem test_wf_refuses_long_key : (Instr.construct .kmac128 (List.replicate (2 ^ 64) 0) []).wf = false := by
  rw [Instr.wf, List.length_replicate]; decide

theorem test_wf_refuses_long_custom : (Instr.construct .kmac128 [] (List.replicate (2 ^ 64) 0)).wf = false := by
  rw [Instr.wf, List.length_replicate]; decide

theorem test_wf_refuses_long_update : (Instr.update (List.replicate (2 ^ 64 - 4) 0)).wf = false := by
  rw [Instr.wf, List.length_replicate]; decide

theorem test_wf_refuses_wide_outlen : (Instr.finalizeFixed (2 ^ 64)).wf = false := by decide

theorem test_wf_refuses_wide_count : (Instr.read (2 ^ 64)).wf = false := by decide

/-! ### Words written out from the spec's encodings (R91, 95 section 2.2) -/

theorem test_decode_construct :
    decode [0x00, 0x00, 0x01, 0x01, 0, 0, 0, 0, 0, 0, 0, 3, 0x40, 0x41, 0x42, 0x4D, 0x79] =
      .ok (.construct .kmac256 [0x40, 0x41, 0x42] [0x4D, 0x79]) := by decide

/-- 95 section 2.2: K is empty and S = "A". -/
theorem test_decode_construct_custom_only :
    decode [0x00, 0x00, 0x00, 0x01, 0, 0, 0, 0, 0, 0, 0, 0, 0x41] = .ok (.construct .kmac128 [] [0x41]) := by decide

theorem test_decode_update : decode [0x00, 0x00, 0x00, 0x02, 0, 1, 2, 3] = .ok (.update [0, 1, 2, 3]) := by decide

theorem test_decode_finalize_fixed :
    decode [0x00, 0x00, 0x00, 0x03, 0, 0, 0, 0, 0, 0, 1, 0x40] = .ok (.finalizeFixed 320) := by decide

theorem test_decode_finalize_xof : decode [0x00, 0x00, 0x00, 0x04] = .ok .finalizeXof := by decide

theorem test_decode_read :
    decode [0x00, 0x00, 0x00, 0x05, 0, 0, 0, 0, 0, 0, 0, 0xC8] = .ok (.read 200) := by decide

/-- The rejected packets of 95 section 2.2, one for each reason. -/
theorem test_decode_rejects_by_name :
    decode [0, 0, 0] = .error .shortPacket ∧
    decode [0x80, 0, 0, 2] = .error .reservedBits ∧ decode [0, 0, 2, 2] = .error .reservedBits ∧
    decode [0, 0, 0, 0] = .error .unassignedOpcode ∧ decode [0, 0, 0, 6] = .error .unassignedOpcode ∧
    decode [0, 0, 0, 0xFF] = .error .unassignedOpcode ∧
    decode [0, 0, 1, 2] = .error .psetOnOtherOpcode ∧
    decode [0, 0, 1, 3, 0, 0, 0, 0, 0, 0, 0, 0x20] = .error .psetOnOtherOpcode ∧
    decode [0, 0, 0, 4, 0] = .error .wrongLength ∧
    decode [0, 0, 0, 3, 0, 0, 0, 0, 0, 0, 0] = .error .wrongLength ∧
    decode [0, 0, 0, 5, 0, 0, 0, 0, 0, 0, 0, 0, 0] = .error .wrongLength ∧
    decode [0, 0, 0, 1] = .error .wrongLength ∧
    decode [0, 0, 0, 1, 0, 0, 0, 0, 0, 0, 0, 1] = .error .keylenPastEnd ∧
    decode [0, 0, 0, 1, 0xFF, 0xFF, 0xFF, 0xFF, 0xFF, 0xFF, 0xFF, 0xFF, 0x61, 0x62, 0x63] = .error .keylenPastEnd := by
  decide

theorem test_encode_construct :
    encode (.construct .kmac256 [0x40, 0x41] [0x4D]) = [0, 0, 1, 1, 0, 0, 0, 0, 0, 0, 0, 2, 0x40, 0x41, 0x4D] := by
  decide

theorem test_encode_finalize_fixed : encode (.finalizeFixed 32) = [0, 0, 0, 3, 0, 0, 0, 0, 0, 0, 0, 0x20] := by decide

/-- A table word with KEYLEN = 1 in bits 95..32 and the payload 41 4D above it (R63, R80, R85). -/
theorem test_table_word_construct :
    decodeTableWord 112 (0x00000001 + 2 ^ 32 + 0x41 * 2 ^ 96 + 0x4D * 2 ^ 104) =
      some (.construct .kmac128 [0x41] [0x4D]) := by decide

theorem test_table_words_without_operands :
    decodeTableWord 32 0x101 = some (.construct .kmac256 [] []) ∧ decodeTableWord 32 2 = some (.update []) ∧
    decodeTableWord 32 3 = some (.finalizeFixed 0) ∧ decodeTableWord 32 4 = some .finalizeXof ∧
    decodeTableWord 32 5 = some (.read 0) ∧ decodeTableWord 32 6 = none := by decide

/-- The word that withFetchWord places is what the next step runs. -/
theorem test_fetch_word_runs :
    (after (step ((absorbing .kmac128 0).withFetchWord 32 4))).map (·.phase) = some .squeezing := by decide +kernel

/-! ### Byte encodings (95 section 2.1) -/

theorem test_left_encode :
    leftEncode 0 = [0x01, 0x00] ∧ leftEncode 127 = [0x01, 0x7F] ∧ leftEncode 256 = [0x02, 0x01, 0x00] ∧
    leftEncode 168 = [0x01, 0xA8] ∧ leftEncode 136 = [0x01, 0x88] := by decide

theorem test_right_encode :
    rightEncode 0 = [0x00, 0x01] ∧ rightEncode 8 = [0x08, 0x01] ∧ fixedSuffix 200 = [0x06, 0x40, 0x02] ∧
    fixedSuffix (2 ^ 64 - 1) = [0x07, 0xFF, 0xFF, 0xFF, 0xFF, 0xFF, 0xFF, 0xFF, 0xF8, 0x09] := by decide

/-- V-L1-1b: the key block of a 20-byte key starts 01 A8 01 A0. -/
theorem test_key_block_start :
    (keyBlock (List.replicate 20 0x40) .kmac128).take 5 = [0x01, 0xA8, 0x01, 0xA0, 0x40] := by decide

/-! ### One step of each command (95 sections 2.3 to 2.7) -/

/-- 95 section 2.3: the STATUS of the seven rows. -/
theorem test_construct_status :
    (after (exec (.construct .kmac128 (zeros 32) []) (fresh 255 0))).map (·.status) = some 0x00000001 ∧
    (after (exec (.construct .kmac128 (zeros 31) []) (fresh 1 0))).map (·.status) = some 0x00000001 ∧
    (after (exec (.construct .kmac128 (zeros 32) []) (fresh 1 0))).map (·.status) = some 0x00001100 ∧
    (after (exec (.construct .kmac128 [] (zeros 32)) (fresh 1 0))).map (·.status) = some 0x00001100 ∧
    (after (exec (.construct .kmac128 (zeros 15) []) (fresh 255 16))).map (·.status) = some 0x00001500 ∧
    (after (exec (.construct .kmac128 (zeros 16) []) (fresh 255 16))).map (·.status) = some 0x00000001 ∧
    (after (exec (.construct .kmac128 (zeros 32) []) (fresh 1 64))).map (·.status) = some 0x00001100 := by
  decide +kernel

/-- Program P5 of 95: a CONSTRUCT over a live instance drops the 3 buffered bytes. -/
theorem test_construct_drops_the_buffer :
    (after (exec (.construct .kmac128 [] []) (absorbing .kmac128 3))).map
      (fun t => (t.buf, t.sp.map (·.absorbed.length), t.sticky)) = some ([], some 168, false) := by decide +kernel

/-- 95 section 2.4: 100 bytes after 100 bytes under KMAC256. -/
theorem test_update_crosses_a_block :
    (after (exec (.update (zeros 100)) (absorbing .kmac256 100))).map (fun t => (t.buf.length, callSizes t)) =
      some (64, [136, 136]) := by decide +kernel

/-- 95 section 2.4: 273 bytes after 135 bytes make three blocks. -/
theorem test_update_three_blocks :
    (after (exec (.update (zeros 273)) (absorbing .kmac256 135))).map (fun t => (t.buf.length, callSizes t)) =
      some (0, [136, 136, 136, 136]) := by decide +kernel

/-- 95 section 2.5, its sixth row (program P4b): a full block, then one byte, then two squeezes. -/
theorem test_finalize_fixed_splits_the_suffix :
    (after (exec (.finalizeFixed 200) (absorbing .kmac128 166))).map
      (fun t => (callSizes t, t.out.length, t.status)) = some ([168, 168, 1, 0, 0], 200, 0x00000002) := by
  decide +kernel

/-- 95 section 2.5: L = 0 is BAD_OUTLEN in ABSORBING and SEQUENCE in SQUEEZING. -/
theorem test_finalize_fixed_zero :
    (after (exec (.finalizeFixed 0) (absorbing .kmac128 1))).map (·.status) = some 0x00001401 ∧
    (after (exec (.finalizeFixed 0) (squeezing .kmac128 0))).map (·.status) = some 0x00001203 := by decide +kernel

/-- 95 section 2.5, the XOF rows. -/
theorem test_finalize_xof_calls :
    (after (exec .finalizeXof (absorbing .kmac128 166))).map callSizes = some [168, 168] ∧
    (after (exec .finalizeXof (absorbing .kmac128 167))).map callSizes = some [168, 168, 1] := by decide +kernel

theorem test_finalize_xof_after_fixed :
    (after (exec .finalizeXof (fixed .kmac256))).map (·.status) = some 0x00001206 := by decide +kernel

/-- 95 section 2.6: READ 500 with 10 bytes pending. -/
theorem test_read_many_blocks :
    (after (exec (.read 500) (squeezing .kmac128 10))).map
      (fun t => (t.pend.length, t.sp.map (·.squeezes), callSizes t)) = some (14, some 4, [0, 0, 0]) := by decide +kernel

/-- 95 section 2.6: READ 10 with 10 bytes pending squeezes nothing. -/
theorem test_read_drains_the_pending_bytes :
    (after (exec (.read 10) (squeezing .kmac128 10))).map
      (fun t => (t.pend.length, t.sp.map (·.squeezes), callSizes t)) = some (0, some 1, []) := by decide +kernel

/-- R226: the bytes a departing collaborator returned are emitted, and nothing is reported. -/
theorem test_read_emits_departing_answers :
    (after (exec (.read 2) (departing (squeezing .kmac128 0)))).map (fun t => (t.out.drop 168, t.status)) =
      some ([Config.departedByte [] 0, Config.departedByte [] 1], 0x00000003) := by rfl

/-- 95 section 2.2: STATUS after an illegal packet in ABSORBING, and section 2.7: after reset. -/
theorem test_illegal_packet_and_reset :
    (after (step (sending (absorbing .kmac128 0) [.packet [0, 0, 2, 2]]))).map (·.status) = some 0x00001301 ∧
    (after (step (sending (absorbing .kmac128 7) [.reset]))).map (·.status) = some 0 := by decide +kernel

/-- R29: the value read is the STATUS before the read. -/
theorem test_status_read :
    (after (step (sending (squeezing .kmac256 3) [.readStatus]))).map (·.statusReads) = some [0x00000007] := by
  decide +kernel

/-! ### The assembler (R89 to R91) -/

theorem test_assemble_construct_line :
    assembleText ["  CONSTRUCT KMAC256, key=x\"40 41\", custom=\"My\" ; begin".toList] =
      some [[0, 0, 1, 1, 0, 0, 0, 0, 0, 0, 0, 2, 0x40, 0x41, 0x4D, 0x79]] := by decide +kernel

theorem test_assemble_program :
    assembleText ["CONSTRUCT KMAC256, key=x\"\", custom=\"\"".toList, "; a comment".toList, "UPDATE x\"00 01\"".toList,
        "FINALIZE_FIXED_DEFAULT".toList] =
      some [[0, 0, 1, 1, 0, 0, 0, 0, 0, 0, 0, 0], [0, 0, 0, 2, 0, 1], [0, 0, 0, 3, 0, 0, 0, 0, 0, 0, 0, 0x40]] := by
  decide +kernel

theorem test_assemble_numbers :
    assembleText ["READ 200".toList, "READ 0xC8".toList, "FINALIZE_XOF".toList] =
      some [[0, 0, 0, 5, 0, 0, 0, 0, 0, 0, 0, 0xC8], [0, 0, 0, 5, 0, 0, 0, 0, 0, 0, 0, 0xC8], [0, 0, 0, 4]] ∧
    assembleText ["READ 18446744073709551616".toList] = none ∧ assembleText ["FINALIZE_FIXED_DEFAULT".toList] = none := by
  decide +kernel

/-! ### States that satisfy the invariants, one for each phase -/

theorem inv_fresh (minKey : Nat) : Inv (fresh 255 minKey) :=
  ⟨⟨rfl, rfl, rfl, rfl, rfl⟩, ⟨by simp [fresh], by simp [fresh]⟩, by simp [fresh, State.reset], by simp [fresh, State.reset]⟩

theorem inv_absorbing (ps : ParamSet) (n : Nat) (h : n ≤ rate ps - 1) : Inv (absorbing ps n) := by
  refine ⟨⟨by simpa [absorbing] using h, rfl, _, [], [], rfl, rfl, by simp [absorbing], keyBlock_length_mod [] ps⟩, ?_, ?_, ?_⟩
  · constructor <;> simp [absorbing, fresh]
  · simp [absorbing, fresh, State.reset]
  · simp [absorbing, fresh, State.reset]

theorem inv_fixed (ps : ParamSet) : Inv (fixed ps) := by
  refine ⟨⟨rfl, rfl, _, [], [], 1, rfl, le_rfl, by simp [finalRec, fixed], ?_, fun _ => List.suffix_rfl⟩, ?_, ?_, ?_⟩
  · cases ps <;> rfl
  · constructor <;> simp [fixed, fresh]
  · simp [fixed, fresh, State.reset]
  · simp [fixed, fresh, State.reset]

theorem inv_squeezing (ps : ParamSet) (n : Nat) (h : n ≤ rate ps - 1) : Inv (squeezing ps n) := by
  have hr := rate_pos ps
  have hl : (squeezing ps n).pend.length = n := by simp [squeezing]; omega
  refine ⟨?_, ⟨by simp [squeezing, fresh], by simp [squeezing, fresh]⟩, by simp [squeezing, fresh, State.reset], by simp [squeezing, fresh, State.reset]⟩
  change (squeezing ps n).buf = [] ∧ _
  refine ⟨rfl, by rw [hl]; exact h, _, [], [], rfl, by simp [finalRec, squeezing], ?_, fun _ => ⟨?_, ?_⟩⟩
  · rw [hl]; simp only [finalRec, squeezing]; omega
  · rw [hl]; simp [finalRec, squeezing]
  · rw [hl]; simp [finalRec, squeezing, State.outSinceReset, fresh, State.reset]

/-- With a departing collaborator R64 asks nothing of the pending and emitted bytes, so none need be Z's. -/
theorem inv_departing :
    Inv (departing { squeezing .kmac128 0 with pend := [7], out := [1, 2], sp := some (finalRec .kmac128 xofSuffix 1) }) := by
  refine ⟨⟨rfl, by decide, _, [], [], rfl, by simp [finalRec, departing, squeezing], by decide +kernel, ?_⟩, ?_, ?_, ?_⟩
  · intro h; cases h
  · constructor <;> simp [departing, squeezing, fresh]
  · simp [departing, squeezing, fresh, State.reset]
  · simp [departing, squeezing, fresh, State.reset]

theorem portOk_absorbing : PortOk (absorbing .kmac128 3) := by
  refine ⟨by decide +kernel, fun p hp => ?_⟩
  cases hp
  decide +kernel

theorem inv_sending {s : State} (h : Inv s) (inputs : List HostInput) : Inv (sending s inputs) := ⟨h.1, h.2, h.3, h.4⟩

/-! ### Witnesses: for each statement with hypotheses, values that meet them together -/

theorem witness_DecodeOfEncodeIsIdentity :
    (Instr.construct .kmac256 [1] [2]).wf = true ∧ (Instr.update []).wf = true ∧
    (Instr.finalizeFixed (2 ^ 64 - 1)).wf = true ∧ Instr.finalizeXof.wf = true ∧ (Instr.read 0).wf = true := by decide

theorem witness_EncodeOfDecodeIsIdentity :
    ∃ (p : Bytes) (i : Instr), p.length < 2 ^ 64 ∧ decode p = .ok i :=
  ⟨[0, 0, 0, 4], .finalizeXof, by decide⟩

theorem witness_IllegalPacketsAreTheSixCases :
    ∃ (s : State) (p : Bytes) (rest : List HostInput) (e : DecodeReject),
      s.inputs = .packet p :: rest ∧ decode p = .error e :=
  ⟨sending (fresh 255 0) [.packet [0, 0, 0, 6]], _, [], .unassignedOpcode, rfl, by decide⟩

/-- Each row of the table, at its shortest packet and a largest argument. -/
theorem witness_AcceptedPacketMatchesItsRow :
    decode [0, 0, 1, 1, 0, 0, 0, 0, 0, 0, 0, 1, 0x41] = .ok (.construct .kmac256 [0x41] []) ∧
    decode [0, 0, 0, 2] = .ok (.update []) ∧
    decode [0, 0, 0, 3, 255, 255, 255, 255, 255, 255, 255, 255] = .ok (.finalizeFixed (2 ^ 64 - 1)) ∧
    decode [0, 0, 0, 4] = .ok .finalizeXof ∧
    decode [0, 0, 0, 5, 255, 255, 255, 255, 255, 255, 255, 255] = .ok (.read (2 ^ 64 - 1)) := by decide

/-- Lines with a CONSTRUCT of the other parameter set before, and a rejected and an accepted command between. -/
theorem witness_PseudoCommandsExpand :
    ∃ (before : List AsmLine) (packets : List Bytes) (between : List Instr),
      assemble none before = some packets ∧ packets.length = 2 ∧ between.length = 2 ∧
      (∀ i ∈ between, ∀ ps key custom, i ≠ Instr.construct ps key custom) :=
  ⟨[.command (.construct .kmac256 [1] []), .fixedDefault], _, [.read 1, .update [1]], rfl, rfl, rfl, by simp⟩

theorem witness_EncBIsMinimalBigEndian : ∃ x : Nat, 0 < x ∧ 1 < nbytes x := ⟨256, by decide⟩

theorem witness_NbytesThresholds :
    (255 ≤ 255 ∧ nbytes 255 = 1 ∧ nbytes 256 = 2) ∧
    (∃ x m : Nat, 1 ≤ m ∧ x ≠ 0 ∧ nbytes x = m ∧ 256 ^ (m - 1) ≤ x ∧ x < 256 ^ m) ∧
    (∃ k lim : Nat, 1 ≤ lim ∧ lim ≤ 255 ∧ encodable (8 * k) lim = true ∧ k < 2 ^ (8 * lim - 3)) ∧
    encodable (8 * 31) 1 = true ∧ encodable (8 * 32) 1 = false := by
  refine ⟨by decide, ⟨65535, 2, by decide⟩, ⟨8191, 2, by decide⟩, by decide, by decide⟩

theorem witness_EncodingsFrameUnambiguously :
    (∃ x y : Nat, nbytes x ≤ 255 ∧ nbytes y ≤ 255 ∧ leftEncode x = leftEncode y ∧ rightEncode x = rightEncode y ∧
      leftEncode x <+: leftEncode y ∧ rightEncode x <:+ rightEncode y ∧ 1 ≤ x) ∧
    (∃ s s' t t' : Bytes, nbytes (8 * s.length) ≤ 255 ∧ nbytes (8 * s'.length) ≤ 255 ∧
      encodeString s ++ t = encodeString s' ++ t') ∧
    (∃ w : Nat, 1 ≤ w) :=
  ⟨⟨256, 256, by decide, by decide, rfl, rfl, List.prefix_rfl, List.suffix_rfl, by decide⟩,
    ⟨[1], [1], [2], [2], by decide, by decide, rfl⟩, ⟨1, le_rfl⟩⟩

theorem witness_KeyBlockBytes :
    ∃ k0 k1 k2 k3 k4 k5 : Bytes, k0.length = 0 ∧ k1.length = 131 ∧ k2.length = 132 ∧ k3.length = 163 ∧
      k4.length = 164 ∧ k5.length = 400 :=
  ⟨[], zeros 131, zeros 132, zeros 163, zeros 164, zeros 400, rfl, length_zeros _, length_zeros _, length_zeros _,
    length_zeros _, length_zeros _⟩

theorem witness_LengthSuffixes :
    (1 ≤ 1 ∧ 1 < 2 ^ 64) ∧ (1 ≤ 2 ^ 64 - 1 ∧ 2 ^ 64 - 1 < 2 ^ 64) ∧ (fixedSuffix (2 ^ 64 - 1)).length = 10 ∧
    (∃ s t : State, exec (.finalizeFixed 1) s = .next t ∨ exec .finalizeXof s = .next t) :=
  ⟨by decide, by decide, by decide, absorbing .kmac128 0, _, .inl rfl⟩

/-- The four outcomes, each at the length where it begins. -/
theorem witness_ConstructChecksThenBegins :
    (zeros 32).length < 2 ^ 64 ∧ (fresh 1 0).cfg.encLimit < nbytes (8 * (zeros 32).length) ∧
    (nbytes (8 * (zeros 31).length) ≤ (fresh 1 32).cfg.encLimit ∧
      nbytes (8 * ([] : Bytes).length) ≤ (fresh 1 32).cfg.encLimit ∧ (zeros 31).length < (fresh 1 32).cfg.minKeyBytes) ∧
    (nbytes (8 * (zeros 31).length) ≤ (fresh 1 31).cfg.encLimit ∧
      nbytes (8 * ([] : Bytes).length) ≤ (fresh 1 31).cfg.encLimit ∧
      (fresh 1 31).cfg.minKeyBytes ≤ (zeros 31).length) := by decide

theorem witness_ConstructForgetsThePreviousInstance :
    Accepts (absorbing .kmac128 3) [1] [] ∧ Accepts (squeezing .kmac256 5) [1] [] := by decide

theorem witness_ConstructKeepsNoCopyOfTheKey :
    Accepts (fresh 255 1) [1] [7] ∧ Accepts (fresh 255 1) [2, 3] [7] := by decide

theorem witness_NormativeLimitNeverRejects :
    ∃ (s t : State) (p : Bytes) (rest : List HostInput), s.cfg.encLimit = 255 ∧ s.inputs = .packet p :: rest ∧
      p.length < 2 ^ 64 ∧ decode p = .ok (.construct .kmac128 [] []) ∧ step s = .next t :=
  ⟨sending (fresh 255 0) [.packet [0, 0, 0, 1, 0, 0, 0, 0, 0, 0, 0, 0]], _, _, [], rfl, rfl, by decide, by decide, rfl⟩

theorem witness_UpdateAbsorbsEveryFullBlock :
    (fresh 255 0).phase ≠ .absorbing ∧
    (∃ p, (absorbing .kmac256 135).phase = .absorbing ∧ (absorbing .kmac256 135).sp = some p) :=
  ⟨by decide, _, rfl, rfl⟩

theorem witness_UpdateSplitsAreEquivalent :
    ∃ (s : State) (p : SpRec), s.phase = .absorbing ∧ s.sp = some p := ⟨absorbing .kmac128 167, _, rfl, rfl⟩

theorem witness_EmptyUpdateWritesOnlyErr :
    ∃ (s : State) (p : SpRec), s.phase = .absorbing ∧ s.sp = some p ∧ s.buf.length < rate s.pset :=
  ⟨absorbing .kmac128 167, _, rfl, rfl, by decide +kernel⟩

theorem witness_AbsorbedStreamWhileAbsorbing : Accepts (fixed .kmac256) (zeros 20) [0x41] := by decide

theorem witness_FinalizeFixedEmitsTheFirstBytes :
    (squeezing .kmac128 1).phase ≠ .absorbing ∧
    ((absorbing .kmac128 1).phase = .absorbing ∧ 0 = 0) ∧
    (∃ p len, (absorbing .kmac256 135).cfg.collab = .meetsContract ∧ (absorbing .kmac256 135).phase = .absorbing ∧
      (absorbing .kmac256 135).sp = some p ∧ p.squeezes = 0 ∧
      (absorbing .kmac256 135).buf.length < rate (absorbing .kmac256 135).pset ∧ 1 ≤ len ∧ len < 2 ^ 64) :=
  ⟨by decide, ⟨rfl, rfl⟩, _, 2 ^ 64 - 1, rfl, rfl, rfl, rfl, by decide +kernel, by decide, by decide⟩

theorem witness_FinalizeXofStartsTheReader :
    (fixed .kmac128).phase ≠ .absorbing ∧
    (∃ p, (absorbing .kmac128 167).phase = .absorbing ∧ (absorbing .kmac128 167).sp = some p ∧
      (absorbing .kmac128 167).buf.length < rate (absorbing .kmac128 167).pset) :=
  ⟨by decide, _, rfl, rfl, by decide +kernel⟩

theorem witness_OutputModesAbsorbDifferentStreams :
    ∃ (s : State) (p : SpRec) (l1 l2 : Nat), s.phase = .absorbing ∧ s.sp = some p ∧ 1 ≤ l1 ∧ l1 < 2 ^ 64 ∧
      1 ≤ l2 ∧ l2 < 2 ^ 64 ∧ l1 ≠ l2 :=
  ⟨absorbing .kmac128 4, _, 1, 2 ^ 64 - 1, rfl, rfl, by decide⟩

theorem witness_FinalizeIsTerminal :
    ∃ (s u : State) (q q' : SpRec) (p : Bytes) (rest : List HostInput),
      s.phase = .finalizedFixed ∧ u.phase = .squeezing ∧ s.sp = some q ∧ u.sp = some q' ∧
      s.inputs = .packet p :: rest ∧ u.inputs = .packet p :: rest ∧
      (∀ ps key custom, decode p ≠ .ok (.construct ps key custom)) := by
  refine ⟨sending (fixed .kmac128) [.packet [0, 0, 0, 4]], sending (squeezing .kmac128 0) [.packet [0, 0, 0, 4]], _, _,
    _, [], rfl, rfl, rfl, rfl, rfl, rfl, fun ps key custom => ?_⟩
  rw [test_decode_finalize_xof]
  simp

theorem witness_ReadEmitsTheNextBytes :
    2 ^ 64 - 1 < 2 ^ 64 ∧ (absorbing .kmac128 0).phase ≠ .squeezing ∧
    (∃ p, (squeezing .kmac128 167).cfg.collab = .meetsContract ∧ (squeezing .kmac128 167).phase = .squeezing ∧
      (squeezing .kmac128 167).sp = some p) :=
  ⟨by decide, by decide, _, rfl, rfl, rfl⟩

/-- The two rows of R191's table meet at n = p: n = 10 and n = 11 with 10 bytes pending; the answers are Z's where the collaborator meets R225. -/
theorem witness_ReaderSubstates :
    (∃ (s : State) (q : SpRec), s.phase = .squeezing ∧ s.sp = some q ∧ s.pend.length < rate s.pset ∧
      s.cfg.collab = .meetsContract ∧ 10 ≤ s.pend.length ∧ s.pend.length < 11) ∧
    (∃ (s : State) (q : SpRec), s.phase = .absorbing ∧ s.sp = some q ∧ q.squeezes = 0) :=
  ⟨⟨squeezing .kmac128 10, _, rfl, rfl, by decide +kernel, rfl, by decide +kernel, by decide +kernel⟩,
    ⟨absorbing .kmac128 0, _, rfl, rfl, rfl⟩⟩

theorem witness_ReadSplitsAreEquivalent :
    ∃ (s : State) (p : SpRec), s.phase = .squeezing ∧ s.sp = some p := ⟨squeezing .kmac256 135, _, rfl, rfl⟩

theorem witness_StreamingConsistency :
    ∃ (s : State) (p : SpRec), s.cfg.collab = .meetsContract ∧ s.phase = .absorbing ∧ s.sp = some p ∧ p.squeezes = 0 :=
  ⟨absorbing .kmac256 4, _, rfl, rfl, rfl, rfl⟩

theorem witness_KmacFixedEndToEnd :
    ∃ (s : State) (cmds : List Instr), cmds = .construct .kmac128 [1] [] :: ([[2], []].map .update ++ [.finalizeFixed 32]) ∧
      s.cfg.collab = .meetsContract ∧ Accepts s [1] [] ∧ 1 ≤ 32 ∧ (∀ i ∈ cmds, i.wf = true) ∧ s.inputs = cmds.map (fun i => .packet (encode i)) :=
  ⟨sending (absorbing .kmac256 5)
      ((.construct .kmac128 [1] [] :: ([[2], []].map Instr.update ++ [.finalizeFixed 32])).map fun i => .packet (encode i)),
    _, rfl, rfl, by decide, by decide, by decide, rfl⟩

theorem witness_KmacXofEndToEnd :
    ∃ (s : State) (cmds : List Instr),
      cmds = .construct .kmac256 [1] [] :: ([[2], []].map .update ++ .finalizeXof :: [5, 200, 0].map .read) ∧
      s.cfg.collab = .meetsContract ∧ Accepts s [1] [] ∧ (∀ i ∈ cmds, i.wf = true) ∧ s.inputs = cmds.map (fun i => .packet (encode i)) :=
  ⟨sending (fresh 255 1)
      ((.construct .kmac256 [1] [] :: ([[2], []].map Instr.update ++ .finalizeXof :: [5, 200, 0].map .read)).map
        fun i => .packet (encode i)),
    _, rfl, rfl, by decide, by decide, rfl⟩

theorem witness_StepRunsTheDecodedCommand :
    (∃ (s : State) (p : Bytes) (rest : List HostInput) (i : Instr), s.inputs = .packet p :: rest ∧ decode p = .ok i) ∧
    (∃ s : State, s.inputs = []) :=
  ⟨⟨sending (absorbing .kmac128 0) [.packet [0, 0, 0, 4]], _, [], _, rfl, test_decode_finalize_xof⟩, fresh 255 0, rfl⟩

/-- A packet waiting in each phase. -/
theorem witness_FirstFailingCheckIsReported :
    Inv (sending (fresh 255 9) [.packet [0, 0, 0, 2]]) ∧ Inv (sending (absorbing .kmac128 167) [.packet [0, 0, 0, 2]]) ∧
    Inv (sending (fixed .kmac256) [.packet [0, 0, 0, 2]]) ∧ Inv (sending (squeezing .kmac256 135) [.packet [0, 0, 0, 2]]) :=
  ⟨inv_sending (inv_fresh 9) _, inv_sending (inv_absorbing _ _ (by decide)) _, inv_sending (inv_fixed _) _,
    inv_sending (inv_squeezing _ _ (by decide)) _⟩

theorem witness_RejectionIsPrecise :
    ∃ (s t : State) (p : Bytes) (rest : List HostInput), s.inputs = .packet p :: rest ∧ step s = .next t ∧ t.err ≠ .ok :=
  ⟨sending (squeezing .kmac128 10) [.packet [0, 0, 0, 4]], _, _, [], rfl, rfl, by decide⟩

theorem witness_StickyRecordsAnyRejection :
    ∃ (packets : List Bytes) (s t : State), s.inputs = packets.map .packet ∧
      Host.Core.run Sys2Proof.core packets.length s = .next t ∧ packets.length = 2 :=
  ⟨[[0, 0, 0, 2], [0]], sending (absorbing .kmac128 3) [.packet [0, 0, 0, 2], .packet [0]], _, rfl, rfl, rfl⟩

theorem witness_LifecycleTransitions :
    (∃ (s : State) (p : Bytes) (rest : List HostInput) (i : Instr),
      Inv s ∧ s.inputs = .packet p :: rest ∧ decode p = .ok i) ∧
    (∃ (s : State) (rest : List HostInput), s.inputs = .reset :: rest) :=
  ⟨⟨sending (absorbing .kmac256 135) [.packet [0, 0, 0, 4]], _, [], _, inv_sending (inv_absorbing _ _ (by decide)) _, rfl,
    test_decode_finalize_xof⟩, sending (fixed .kmac128) [.reset], [], rfl⟩

theorem witness_StatusReadHasNoSideEffect :
    ∃ (s : State) (rest : List HostInput), s.inputs = .readStatus :: rest :=
  ⟨sending (fixed .kmac128) [.readStatus], [], rfl⟩

theorem witness_HardwareResetRestoresTheTable :
    ∃ (s : State) (rest : List HostInput), s.inputs = .reset :: rest :=
  ⟨sending (squeezing .kmac128 7) [.reset, .readStatus], [.readStatus], rfl⟩

theorem witness_StepKeepsThePhaseInvariant :
    ∃ s t : State, Inv s ∧ step s = .next t ∧ t.phase = .squeezing :=
  ⟨sending (absorbing .kmac128 166) [.packet [0, 0, 0, 4]], _, inv_sending (inv_absorbing _ _ (by decide)) _, rfl,
    by decide +kernel⟩

theorem witness_StepKeepsThePortProtocol :
    ∃ s t : State, Inv s ∧ PortOk s ∧ step s = .next t ∧ t.phase = .squeezing :=
  ⟨sending (absorbing .kmac128 3) [.packet [0, 0, 0, 4]], _, inv_sending (inv_absorbing _ _ (by decide)) _,
    portOk_absorbing, rfl, by decide +kernel⟩

theorem witness_EveryInputIsAnswered : Inv (sending (fresh 255 0) [.packet [], .reset, .readStatus]) :=
  inv_sending (inv_fresh 0) _

/-- The stuck state is there, outside the invariant. -/
theorem witness_StuckOnlyWithoutAnInstance :
    ∃ (s : State) (f : Fault), step s = .fault f :=
  ⟨sending { fresh 255 0 with phase := .absorbing } [.packet [0, 0, 0, 2]], _, rfl⟩

theorem witness_OnlyFixedAndReadEmit :
    ∃ s t : State, step s = .next t ∧ t.out.length = s.out.length + 2 :=
  ⟨sending (squeezing .kmac128 1) [.packet [0, 0, 0, 5, 0, 0, 0, 0, 0, 0, 0, 2]], _, rfl, by decide +kernel⟩

/-- A departing collaborator, with 167 bytes buffered or pending, and both ends of L's range. -/
theorem witness_EmittedBytesAreTheAnswers :
    (∃ (n : Nat) (s : State) (p : SpRec), s.phase = .squeezing ∧ s.sp = some p ∧ s.cfg.collab = .departs ∧
      s.pend.length < n) ∧
    (∃ (s : State) (p : SpRec), s.phase = .absorbing ∧ s.sp = some p ∧ s.buf.length < rate s.pset ∧
      s.cfg.collab = .departs) ∧
    (1 ≤ 1 ∧ 1 < 2 ^ 64) ∧ (1 ≤ 2 ^ 64 - 1 ∧ 2 ^ 64 - 1 < 2 ^ 64) :=
  ⟨⟨168, departing (squeezing .kmac128 167), _, rfl, rfl, rfl, by decide +kernel⟩,
    ⟨departing (absorbing .kmac128 167), _, rfl, rfl, by decide +kernel, rfl⟩, by decide, by decide⟩

theorem witness_ParameterSetAndConfigurationAreFixed :
    ∃ s t : State, step s = .next t ∧ t.pset ≠ s.pset :=
  ⟨sending (fresh 255 0) [.packet [0, 0, 1, 1, 0, 0, 0, 0, 0, 0, 0, 0]], _, rfl, by decide +kernel⟩

theorem witness_BuffersFitTheirStorage : Inv (absorbing .kmac128 167) ∧ Inv (squeezing .kmac128 167) :=
  ⟨inv_absorbing _ _ (by decide), inv_squeezing _ _ (by decide)⟩

end Sys2Proof.Tests
end

namespace Sys2Proof.Machine

/-! Commands in the block's state: when the order of checks passes a command, and what the command then changes and keeps. -/

@[simp] theorem commandErr_update_eq_ok {data : Bytes} {s : State} :
    commandErr (.update data) s = .ok ↔ s.phase = .absorbing := by
  simp [commandErr]

@[simp] theorem commandErr_finalizeFixed_eq_ok {len : Nat} {s : State} :
    commandErr (.finalizeFixed len) s = .ok ↔ s.phase = .absorbing ∧ len ≠ 0 := by
  unfold commandErr
  split_ifs <;> simp_all

@[simp] theorem commandErr_finalizeXof_eq_ok {s : State} :
    commandErr .finalizeXof s = .ok ↔ s.phase = .absorbing := by
  simp [commandErr]

@[simp] theorem commandErr_read_eq_ok {n : Nat} {s : State} :
    commandErr (.read n) s = .ok ↔ s.phase = .squeezing := by
  simp [commandErr]

/-- The state an accepted command leaves, where p is the collaborator record it works on; CONSTRUCT begins a new one and does not read p. -/
def effect (p : SpRec) (s : State) : Instr → State
  | .construct ps key custom => beginInstance ps key custom s
  | .update data => afterUpdate data s p
  | .finalizeFixed len => afterFinalizeFixed len s p
  | .finalizeXof => afterFinalizeXof s p
  | .read n => afterRead n s p

/-- A command that answers a next state rejects with the first check that fails, or has its effect on some collaborator record. -/
theorem exec_next_effect {i : Instr} {s t : State} (h : exec i s = .next t) :
    (commandErr i s ≠ .ok ∧ t = s.reject (commandErr i s)) ∨ (commandErr i s = .ok ∧ ∃ p, t = effect p s i) := by
  rcases exec_next_cases h with hrej | ⟨hok, heff⟩
  · exact .inl hrej
  · refine .inr ⟨hok, ?_⟩
    cases i with
    | construct ps key custom => exact ⟨⟨[], [], 0⟩, heff⟩
    | update data => obtain ⟨p, -, ht⟩ := heff; exact ⟨p, ht⟩
    | finalizeFixed len => obtain ⟨p, -, ht⟩ := heff; exact ⟨p, ht⟩
    | finalizeXof => obtain ⟨p, -, ht⟩ := heff; exact ⟨p, ht⟩
    | read n => obtain ⟨p, -, ht⟩ := heff; exact ⟨p, ht⟩

@[simp] theorem effect_err (p : SpRec) (s : State) (i : Instr) : (effect p s i).err = .ok := by cases i <;> rfl
@[simp] theorem effect_sticky (p : SpRec) (s : State) (i : Instr) : (effect p s i).sticky = s.sticky := by
  cases i <;> rfl
@[simp] theorem effect_outMark (p : SpRec) (s : State) (i : Instr) : (effect p s i).outMark = s.outMark := by
  cases i <;> rfl
@[simp] theorem effect_inputs (p : SpRec) (s : State) (i : Instr) : (effect p s i).inputs = s.inputs := by
  cases i <;> rfl
@[simp] theorem effect_cfg (p : SpRec) (s : State) (i : Instr) : (effect p s i).cfg = s.cfg := by cases i <;> rfl

/-- R37: an accepted command leaves the phase of its row. -/
theorem effect_phase (p : SpRec) {s : State} {i : Instr} (hok : commandErr i s = .ok) :
    (effect p s i).phase = phaseAfter i := by
  cases i with
  | construct ps key custom => rfl
  | update data => exact (commandErr_update_eq_ok (data := data)).1 hok
  | finalizeFixed len => rfl
  | finalizeXof => rfl
  | read n => exact (commandErr_read_eq_ok (n := n)).1 hok

/-- R22: of the commands, only CONSTRUCT writes the parameter set. -/
theorem effect_pset (p : SpRec) (s : State) (i : Instr) :
    (effect p s i).pset = s.pset ∨ ∃ key custom, i = .construct (effect p s i).pset key custom := by
  cases i with
  | construct ps key custom => exact .inr ⟨key, custom, rfl⟩
  | update data => exact .inl rfl
  | finalizeFixed len => exact .inl rfl
  | finalizeXof => exact .inl rfl
  | read n => exact .inl rfl

/-- The output history of t extends that of s, by something only where that many bytes were asked for. -/
def EmitsOnly (asked : Nat → Prop) (s t : State) : Prop :=
  ∃ new, t.out = s.out ++ new ∧ (new ≠ [] → asked new.length)

theorem EmitsOnly.of_out_eq {asked : Nat → Prop} {s t : State} (h : t.out = s.out) : EmitsOnly asked s t :=
  ⟨[], by rw [h, List.append_nil], fun hne => absurd rfl hne⟩

theorem EmitsOnly.imp {asked asked' : Nat → Prop} {s t : State} (h : EmitsOnly asked s t)
    (himp : ∀ n, asked n → asked' n) : EmitsOnly asked' s t := by
  obtain ⟨new, hout, hnew⟩ := h
  exact ⟨new, hout, fun hne => himp _ (hnew hne)⟩

/-- R27: of the commands, FINALIZE_FIXED and READ emit, as many bytes as they ask for. -/
theorem effect_emits (p : SpRec) (s : State) (i : Instr) :
    EmitsOnly (fun n => i = .finalizeFixed n ∨ i = .read n) s (effect p s i) := by
  cases i with
  | construct ps key custom => exact .of_out_eq rfl
  | update data => exact .of_out_eq rfl
  | finalizeFixed len =>
    refine ⟨_, rfl, fun _ => .inl ?_⟩
    rw [List.length_take_of_le (le_length_fixedAnswers _ _ _)]
  | finalizeXof => exact .of_out_eq rfl
  | read n =>
    refine ⟨_, rfl, fun _ => .inr ?_⟩
    rw [List.length_take_of_le (le_length_readSupply _ _ _)]

/-- R30: a command that answers a next state reports its code. -/
theorem exec_err {i : Instr} {s t : State} (h : exec i s = .next t) : t.err = commandErr i s := by
  obtain ⟨-, rfl⟩ | ⟨hok, p, rfl⟩ := exec_next_effect h
  · rfl
  · rw [effect_err, hok]

theorem exec_phase {i : Instr} {s t : State} (h : exec i s = .next t) :
    t.phase = if commandErr i s = .ok then phaseAfter i else s.phase := by
  obtain ⟨hne, rfl⟩ | ⟨hok, p, rfl⟩ := exec_next_effect h
  · rw [if_neg hne, State.reject_phase]
  · rw [if_pos hok, effect_phase p hok]

theorem exec_inputs {i : Instr} {s t : State} (h : exec i s = .next t) : t.inputs = s.inputs := by
  obtain ⟨-, rfl⟩ | ⟨-, p, rfl⟩ := exec_next_effect h <;> simp

theorem exec_cfg {i : Instr} {s t : State} (h : exec i s = .next t) : t.cfg = s.cfg := by
  obtain ⟨-, rfl⟩ | ⟨-, p, rfl⟩ := exec_next_effect h <;> simp

/-- R31: STICKY stays clear exactly when the command is not rejected. -/
theorem exec_sticky {i : Instr} {s t : State} (h : exec i s = .next t) :
    t.sticky = false ↔ s.sticky = false ∧ t.err = .ok := by
  obtain ⟨hne, rfl⟩ | ⟨-, p, rfl⟩ := exec_next_effect h
  · simp [hne]
  · simp

theorem exec_pset {i : Instr} {s t : State} (h : exec i s = .next t) :
    t.pset = s.pset ∨ t.err = .ok ∧ ∃ key custom, i = .construct t.pset key custom := by
  obtain ⟨-, rfl⟩ | ⟨-, p, rfl⟩ := exec_next_effect h
  · exact .inl rfl
  · exact (effect_pset p s i).imp_right fun hi => ⟨effect_err p s i, hi⟩

theorem exec_emits {i : Instr} {s t : State} (h : exec i s = .next t) :
    EmitsOnly (fun n => i = .finalizeFixed n ∨ i = .read n) s t := by
  obtain ⟨-, rfl⟩ | ⟨-, p, rfl⟩ := exec_next_effect h
  · exact .of_out_eq rfl
  · exact effect_emits p s i

/-! Where the machine stops. -/

/-- A command whose body needs the port answers a next state, or stops for want of a collaborator to call. -/
theorem withPort_next_or_fault (s : State) (body : Port → State) :
    (∃ t, withPort s body = .next t) ∨ (s.sp = none ∧ withPort s body = .fault .noCollaborator) := by
  cases hs : s.sp with
  | none => exact .inr ⟨rfl, by simp [withPort, hs]⟩
  | some p => exact .inl ⟨_, withPort_some hs body⟩

/-- A command answers a next state, or it stops in a live phase that has no collaborator record (93 I4). -/
theorem exec_next_or_fault (i : Instr) (s : State) :
    (∃ t, exec i s = .next t) ∨
      (s.sp = none ∧ (s.phase = .absorbing ∨ s.phase = .squeezing) ∧ exec i s = .fault .noCollaborator) := by
  cases i with
  | construct ps key custom => exact .inl ⟨_, rfl⟩
  | update data =>
    by_cases hp : s.phase = .absorbing
    · simpa [exec, execUpdate, hp] using withPort_next_or_fault s _
    · exact .inl ⟨_, execUpdate_rejected hp⟩
  | finalizeFixed len =>
    by_cases hp : s.phase = .absorbing
    · by_cases hl : len = 0
      · subst hl; exact .inl ⟨_, execFinalizeFixed_zero hp⟩
      · simpa [exec, execFinalizeFixed, hp, hl] using withPort_next_or_fault s _
    · exact .inl ⟨_, execFinalizeFixed_rejected hp⟩
  | finalizeXof =>
    by_cases hp : s.phase = .absorbing
    · simpa [exec, execFinalizeXof, hp] using withPort_next_or_fault s _
    · exact .inl ⟨_, execFinalizeXof_rejected hp⟩
  | read n =>
    by_cases hp : s.phase = .squeezing
    · simpa [exec, execRead, hp] using withPort_next_or_fault s _
    · exact .inl ⟨_, execRead_rejected hp⟩

/-- A step answers a next state, or it stops in a live phase that has no collaborator record (93 I4). -/
theorem step_next_or_fault (s : State) :
    (∃ t, step s = .next t) ∨
      (s.sp = none ∧ (s.phase = .absorbing ∨ s.phase = .squeezing) ∧ step s = .fault .noCollaborator) := by
  cases hi : s.inputs with
  | nil => exact .inl ⟨_, step_idle hi⟩
  | cons x rest =>
    cases x with
    | readStatus => exact .inl ⟨_, step_readStatus hi⟩
    | reset => exact .inl ⟨_, step_reset hi⟩
    | packet p =>
      rw [step_packet hi]
      cases hd : decode p with
      | error e => exact .inl ⟨_, deliver_error hd⟩
      | ok i => rw [deliver_ok hd]; exact exec_next_or_fault i { s with inputs := rest }

/-! The invariant of R35, phase by phase. -/

theorem phaseInv_unconstructed_iff {s : State} (hp : s.phase = .unconstructed) :
    PhaseInv s ↔ s.buf = [] ∧ s.pend = [] ∧ s.sp = none ∧ s.pset = .kmac128 ∧ s.outSinceReset = [] := by
  simp only [PhaseInv, hp]

theorem phaseInv_absorbing_iff {s : State} (hp : s.phase = .absorbing) :
    PhaseInv s ↔ s.buf.length ≤ rate s.pset - 1 ∧ s.pend = [] ∧
      ∃ p key msg, s.sp = some p ∧ p.squeezes = 0 ∧ p.absorbed = keyBlock key s.pset ++ msg ∧
        p.absorbed.length % rate s.pset = 0 := by
  simp only [PhaseInv, hp]

theorem phaseInv_finalizedFixed_iff {s : State} (hp : s.phase = .finalizedFixed) :
    PhaseInv s ↔ s.buf = [] ∧ s.pend = [] ∧
      ∃ p key msg len, s.sp = some p ∧ 1 ≤ len ∧ p.absorbed = keyBlock key s.pset ++ msg ++ fixedSuffix len ∧
        p.squeezes = (len + rate s.pset - 1) / rate s.pset ∧
        (s.cfg.collab = .meetsContract → streamSlice (p.stream s.pset) 0 len <:+ s.outSinceReset) := by
  simp only [PhaseInv, hp]

/-- The place in Z of the next byte READ emits, p being the collaborator record: what has been squeezed but for the bytes pending. -/
def nextByte (s : State) (p : SpRec) : Nat := p.squeezes * rate s.pset - s.pend.length

/-- What R25 and R64 ask of the Reader with collaborator record p where the collaborator meets R225: st.pend is the stretch of Z from the next byte to
the end of the last squeezed block, and all of Z before it has been emitted. -/
def ReaderOnStream (s : State) (p : SpRec) : Prop :=
  s.pend = streamSlice (p.stream s.pset) (nextByte s p) (p.squeezes * rate s.pset) ∧
    streamSlice (p.stream s.pset) 0 (nextByte s p) <:+ s.outSinceReset

theorem phaseInv_squeezing_iff {s : State} (hp : s.phase = .squeezing) :
    PhaseInv s ↔ s.buf = [] ∧ s.pend.length ≤ rate s.pset - 1 ∧
      ∃ p key msg, s.sp = some p ∧ p.absorbed = keyBlock key s.pset ++ msg ++ xofSuffix ∧
        s.pend.length ≤ p.squeezes * rate s.pset ∧ (s.cfg.collab = .meetsContract → ReaderOnStream s p) := by
  simp only [PhaseInv, hp, ReaderOnStream, nextByte]

theorem PhaseInv.length_buf_lt {s : State} (h : PhaseInv s) : s.buf.length < rate s.pset := by
  have hr := rate_pos s.pset
  cases hp : s.phase with
  | unconstructed => obtain ⟨hbuf, -⟩ := (phaseInv_unconstructed_iff hp).1 h; simp [hbuf, hr]
  | absorbing => obtain ⟨hbuf, -⟩ := (phaseInv_absorbing_iff hp).1 h; omega
  | finalizedFixed => obtain ⟨hbuf, -⟩ := (phaseInv_finalizedFixed_iff hp).1 h; simp [hbuf, hr]
  | squeezing => obtain ⟨hbuf, -⟩ := (phaseInv_squeezing_iff hp).1 h; simp [hbuf, hr]

theorem PhaseInv.length_pend_lt {s : State} (h : PhaseInv s) : s.pend.length < rate s.pset := by
  have hr := rate_pos s.pset
  cases hp : s.phase with
  | unconstructed => obtain ⟨-, hpend, -⟩ := (phaseInv_unconstructed_iff hp).1 h; simp [hpend, hr]
  | absorbing => obtain ⟨-, hpend, -⟩ := (phaseInv_absorbing_iff hp).1 h; simp [hpend, hr]
  | finalizedFixed => obtain ⟨-, hpend, -⟩ := (phaseInv_finalizedFixed_iff hp).1 h; simp [hpend, hr]
  | squeezing => obtain ⟨-, hpend, -⟩ := (phaseInv_squeezing_iff hp).1 h; omega

/-- In a live phase there is a collaborator to call (R35). -/
theorem PhaseInv.sp_ne_none {s : State} (h : PhaseInv s) (hp : s.phase = .absorbing ∨ s.phase = .squeezing) :
    s.sp ≠ none := by
  rcases hp with hp | hp
  · obtain ⟨-, -, p, -, -, hs, -⟩ := (phaseInv_absorbing_iff hp).1 h; simp [hs]
  · obtain ⟨-, -, p, -, -, hs, -⟩ := (phaseInv_squeezing_iff hp).1 h; simp [hs]

theorem Inv.exec_next {s : State} (h : Inv s) (i : Instr) : ∃ t, exec i s = .next t := by
  rcases exec_next_or_fault i s with hn | ⟨hs, hp, -⟩
  · exact hn
  · exact absurd hs (h.phaseInv.sp_ne_none hp)

/-! Every step keeps the invariant. -/

theorem Inv.withInputs {s : State} (h : Inv s) (inputs : List HostInput) : Inv { s with inputs := inputs } :=
  ⟨h.phaseInv, h.cfgInRange, h.stickyOfErr, h.markInside⟩

theorem Inv.recordStatusRead {s : State} (h : Inv s) : Inv s.recordStatusRead :=
  ⟨h.phaseInv, h.cfgInRange, h.stickyOfErr, h.markInside⟩

theorem Inv.reject {s : State} (h : Inv s) (c : ErrCode) : Inv (s.reject c) :=
  ⟨h.phaseInv, h.cfgInRange, fun _ => rfl, h.markInside⟩

theorem Inv.hardReset {s : State} (h : Inv s) : Inv s.hardReset where
  phaseInv := (phaseInv_unconstructed_iff rfl).2 ⟨rfl, rfl, rfl, rfl, by simp [State.outSinceReset]⟩
  cfgInRange := h.cfgInRange
  stickyOfErr := fun hne => absurd rfl hne
  markInside := le_rfl

/-- Of an accepted command, only the invariant of the phase is left to show. -/
theorem Inv.of_effect {s : State} (h : Inv s) {p : SpRec} {i : Instr} (hphase : PhaseInv (effect p s i)) :
    Inv (effect p s i) where
  phaseInv := hphase
  cfgInRange := by rw [effect_cfg]; exact h.cfgInRange
  stickyOfErr := fun hne => absurd (effect_err p s i) hne
  markInside := by
    obtain ⟨new, hout, -⟩ := effect_emits p s i
    have hmark := h.markInside
    rw [effect_outMark, hout, List.length_append]
    omega

/-- An absorbing state in full: its collaborator record has absorbed the key block and more, in whole blocks, and squeezed nothing. -/
theorem PhaseInv.absorbed {s : State} {p : SpRec} (h : PhaseInv s) (hp : s.phase = .absorbing) (hs : s.sp = some p) :
    s.pend = [] ∧ p.squeezes = 0 ∧ p.absorbed.length % rate s.pset = 0 ∧
      ∃ key msg, p.absorbed = keyBlock key s.pset ++ msg := by
  obtain ⟨-, hpend, p', key, msg, hs', hsq, habs, hmod⟩ := (phaseInv_absorbing_iff hp).1 h
  obtain rfl : p = p' := Option.some.inj (hs.symm.trans hs')
  exact ⟨hpend, hsq, hmod, key, msg, habs⟩

theorem State.outSinceReset_append {s t : State} {new : Bytes} (hmark : s.outMark ≤ s.out.length)
    (hm : t.outMark = s.outMark) (hout : t.out = s.out ++ new) : t.outSinceReset = s.outSinceReset ++ new := by
  rw [State.outSinceReset, hm, hout, List.drop_append_of_le_length hmark, State.outSinceReset]

theorem length_flatten_fullBlocks_mod (r : Nat) (t : Bytes) : (fullBlocks r t).flatten.length % r = 0 := by
  rw [flatten_fullBlocks, List.length_take_of_le (Nat.div_mul_le_self _ _), Nat.mul_mod_left]

theorem phaseInv_beginInstance (ps : ParamSet) (key custom : Bytes) (s : State) :
    PhaseInv (beginInstance ps key custom s) := by
  rw [beginInstance_eq, phaseInv_absorbing_iff rfl]
  exact ⟨Nat.zero_le _, rfl, _, key, [], rfl, rfl, (List.append_nil _).symm, keyBlock_length_mod key ps⟩

theorem phaseInv_afterUpdate {s : State} {p : SpRec} (h : PhaseInv s) (hp : s.phase = .absorbing) (hs : s.sp = some p)
    (data : Bytes) : PhaseInv (afterUpdate data s p) := by
  obtain ⟨hpend, hsq, hmod, key, msg, habs⟩ := h.absorbed hp hs
  rw [phaseInv_absorbing_iff (by exact hp)]
  refine ⟨?_, hpend, _, key, msg ++ (fullBlocks (rate s.pset) (s.buf ++ data)).flatten, rfl, hsq, ?_, ?_⟩
  · exact Nat.le_sub_one_of_lt (length_leftover_lt (rate_pos s.pset) _)
  · simp [afterUpdate, habs]
  · simp only [afterUpdate, List.length_append]
    rw [Nat.add_mod, hmod, length_flatten_fullBlocks_mod, Nat.zero_add, Nat.zero_mod]

theorem phaseInv_afterFinalizeFixed {s : State} {p : SpRec} (h : Inv s) (hp : s.phase = .absorbing)
    (hs : s.sp = some p) {len : Nat} (hl : len ≠ 0) : PhaseInv (afterFinalizeFixed len s p) := by
  obtain ⟨-, hsq, -, key, msg, habs⟩ := h.phaseInv.absorbed hp hs
  rw [phaseInv_finalizedFixed_iff rfl]
  refine ⟨rfl, rfl, _, key, msg ++ s.buf, len, rfl, Nat.one_le_iff_ne_zero.2 hl, ?_, ?_, fun hc => ?_⟩
  · simp [afterFinalizeFixed, habs]
  · simp [afterFinalizeFixed, hsq]
  · have hout := afterFinalizeFixed_out_of_meets (s := s) hc len p
    rw [hsq, Nat.zero_mul, Nat.zero_add] at hout
    rw [State.outSinceReset_append (t := afterFinalizeFixed len s p) h.markInside rfl hout]
    exact List.suffix_append _ _

theorem phaseInv_afterFinalizeXof {s : State} {p : SpRec} (h : PhaseInv s) (hp : s.phase = .absorbing)
    (hs : s.sp = some p) : PhaseInv (afterFinalizeXof s p) := by
  obtain ⟨-, hsq, -, key, msg, habs⟩ := h.absorbed hp hs
  rw [phaseInv_squeezing_iff rfl]
  refine ⟨rfl, Nat.zero_le _, _, key, msg ++ s.buf, rfl, ?_, Nat.zero_le _, fun _ => ⟨?_, ?_⟩⟩
  · simp [afterFinalizeXof, habs]
  · simp [afterFinalizeXof, nextByte]
  · simp [afterFinalizeXof, nextByte, hsq]

@[simp] theorem afterRead_pset (n : Nat) (s : State) (p : SpRec) : (afterRead n s p).pset = s.pset := rfl
@[simp] theorem afterRead_pend (n : Nat) (s : State) (p : SpRec) :
    (afterRead n s p).pend = (readSupply n s p).drop n := rfl

/-- The collaborator record after READ(n) (R190). -/
def recAfterRead (n : Nat) (s : State) (p : SpRec) : SpRec :=
  { p with squeezes := p.squeezes + readBlocks s.pset s.pend.length n }

theorem afterRead_sp (n : Nat) (s : State) (p : SpRec) : (afterRead n s p).sp = some (recAfterRead n s p) := rfl

@[simp] theorem recAfterRead_stream (n : Nat) (s : State) (p : SpRec) (ps : ParamSet) :
    (recAfterRead n s p).stream ps = p.stream ps := rfl

/-- READ never squeezes a block it does not need (R190): what it leaves over is less than one block. -/
theorem length_readSupply_lt {s : State} (hpend : s.pend.length < rate s.pset) (n : Nat) (p : SpRec) :
    (readSupply n s p).length < n + rate s.pset := by
  have h := Nat.div_mul_le_self (n - s.pend.length + rate s.pset - 1) (rate s.pset)
  rw [length_readSupply]
  by_cases hn : n ≤ s.pend.length
  · rw [readBlocks_of_le hn]; omega
  · rw [readBlocks]; omega

/-- READ's blocks in hand end where its squeezed blocks end. -/
theorem nextByte_add_length_readSupply {s : State} {p : SpRec} (hle : s.pend.length ≤ p.squeezes * rate s.pset)
    (n : Nat) :
    nextByte s p + (readSupply n s p).length = (recAfterRead n s p).squeezes * rate s.pset := by
  rw [nextByte, length_readSupply, recAfterRead, Nat.add_mul]
  omega

/-- READ(n) moves the Reader on by n bytes. -/
theorem nextByte_afterRead {s : State} {p : SpRec} (hle : s.pend.length ≤ p.squeezes * rate s.pset) (n : Nat) :
    nextByte (afterRead n s p) (recAfterRead n s p) = nextByte s p + n := by
  have hend := nextByte_add_length_readSupply hle n
  have hn := le_length_readSupply n s p
  rw [nextByte, afterRead_pset, afterRead_pend, List.length_drop]
  omega

/-- A Reader that stands on Z has at hand the stretch of Z from its next byte to the end of the last block READ squeezes. -/
theorem ReaderOnStream.readSupply_eq {s : State} {p : SpRec} (h : ReaderOnStream s p)
    (hc : s.cfg.collab = .meetsContract) (n : Nat) :
    readSupply n s p =
      streamSlice (p.stream s.pset) (nextByte s p) ((recAfterRead n s p).squeezes * rate s.pset) := by
  obtain ⟨hpend, -⟩ := h
  have hnext : nextByte s p ≤ p.squeezes * rate s.pset := Nat.sub_le _ _
  have hmore : p.squeezes * rate s.pset ≤ (recAfterRead n s p).squeezes * rate s.pset :=
    Nat.mul_le_mul_right _ (Nat.le_add_right _ _)
  rw [← streamSlice_append _ hnext hmore, ← hpend]
  exact readSupply_of_meets hc n p

/-- READ keeps the Reader on Z (R25, R64). -/
theorem ReaderOnStream.afterRead {s : State} {p : SpRec} (h : ReaderOnStream s p) (hc : s.cfg.collab = .meetsContract)
    (hmark : s.outMark ≤ s.out.length) (hle : s.pend.length ≤ p.squeezes * rate s.pset) (n : Nat) :
    ReaderOnStream (afterRead n s p) (recAfterRead n s p) := by
  have hsupply := h.readSupply_eq hc n
  have hend : nextByte s p + n ≤ (recAfterRead n s p).squeezes * rate s.pset := by
    rw [← nextByte_add_length_readSupply hle]
    exact Nat.add_le_add_left (le_length_readSupply n s p) _
  rw [ReaderOnStream, nextByte_afterRead hle, recAfterRead_stream, afterRead_pset, afterRead_pend]
  constructor
  · rw [hsupply, streamSlice_drop _ hend]
  · rw [State.outSinceReset_append (t := Machine.afterRead n s p) hmark rfl rfl, hsupply, streamSlice_take _ hend,
      ← streamSlice_append _ (Nat.zero_le _) (Nat.le_add_right (nextByte s p) n)]
    obtain ⟨before, hbefore⟩ := h.2
    exact ⟨before, by rw [← hbefore, List.append_assoc]⟩

theorem phaseInv_afterRead {s : State} {p : SpRec} (h : Inv s) (hp : s.phase = .squeezing) (hs : s.sp = some p)
    (n : Nat) : PhaseInv (afterRead n s p) := by
  obtain ⟨hbuf, hpend, p', key, msg, hs', habs, hle, hstream⟩ := (phaseInv_squeezing_iff hp).1 h.phaseInv
  obtain rfl : p = p' := Option.some.inj (hs.symm.trans hs')
  rw [phaseInv_squeezing_iff (by exact hp)]
  refine ⟨hbuf, ?_, _, key, msg, afterRead_sp n s p, habs, ?_,
    fun hc => (hstream hc).afterRead hc h.markInside hle n⟩
  · have hlt := length_readSupply_lt h.phaseInv.length_pend_lt n p
    rw [afterRead_pset, afterRead_pend, List.length_drop]
    omega
  · rw [afterRead_pset, ← nextByte_add_length_readSupply hle, afterRead_pend, List.length_drop]
    omega

theorem inv_of_exec {s t : State} {i : Instr} (h : Inv s) (hx : exec i s = .next t) : Inv t := by
  rcases exec_next_cases hx with ⟨-, rfl⟩ | ⟨hok, heff⟩
  · exact h.reject _
  cases i with
  | construct ps key custom =>
    obtain rfl : t = beginInstance ps key custom s := heff
    exact h.of_effect (p := ⟨[], [], 0⟩) (i := .construct ps key custom) (phaseInv_beginInstance ps key custom s)
  | update data =>
    obtain ⟨p, hs, rfl⟩ := heff
    exact h.of_effect (i := .update data) (phaseInv_afterUpdate h.phaseInv (commandErr_update_eq_ok.1 hok) hs data)
  | finalizeFixed len =>
    obtain ⟨p, hs, rfl⟩ := heff
    obtain ⟨hp, hl⟩ := commandErr_finalizeFixed_eq_ok.1 hok
    exact h.of_effect (i := .finalizeFixed len) (phaseInv_afterFinalizeFixed h hp hs hl)
  | finalizeXof =>
    obtain ⟨p, hs, rfl⟩ := heff
    exact h.of_effect (i := .finalizeXof)
      (phaseInv_afterFinalizeXof h.phaseInv (commandErr_finalizeXof_eq_ok.1 hok) hs)
  | read n =>
    obtain ⟨p, hs, rfl⟩ := heff
    exact h.of_effect (i := .read n) (phaseInv_afterRead h (commandErr_read_eq_ok.1 hok) hs n)

theorem inv_of_step {s t : State} (h : Inv s) (hx : step s = .next t) : Inv t := by
  rcases step_next_cases hx with ⟨-, rfl⟩ | ⟨rest, -, rfl⟩ | ⟨rest, -, rfl⟩ | ⟨p, rest, e, -, -, rfl⟩ |
    ⟨p, rest, i, -, -, hexec⟩
  · exact h
  · exact (h.withInputs rest).recordStatusRead
  · exact (h.withInputs rest).hardReset
  · exact (h.withInputs rest).reject _
  · exact inv_of_exec (h.withInputs rest) hexec

/-- Settles O40: each command's effect keeps the invariant of the phase it leaves. -/
theorem stepKeepsThePhaseInvariant : Obligations.StepKeepsThePhaseInvariant := by
  intro s t h hx
  exact inv_of_step h hx

/-- Settles O15: the key stands only in the key block that both the record and the calls hold. -/
theorem constructKeepsNoCopyOfTheKey : Obligations.ConstructKeepsNoCopyOfTheKey := by
  intro ps key key' custom s h h'
  refine ⟨_, _, execConstruct_accepted h, execConstruct_accepted h', ?_⟩
  simp [beginInstance_eq]

/-! STICKY over a run of packets. -/

theorem step_of_packet_inputs {s t : State} {p : Bytes} {rest : List HostInput} (hi : s.inputs = .packet p :: rest)
    (h : step s = .next t) : t.inputs = rest := by
  rw [step_packet hi] at h
  cases hd : decode p with
  | error e => rw [deliver_error hd] at h; cases h; rfl
  | ok i => rw [deliver_ok hd] at h; exact exec_inputs h

theorem step_of_packet_sticky {s t : State} {p : Bytes} {rest : List HostInput} (hi : s.inputs = .packet p :: rest)
    (h : step s = .next t) : t.sticky = false ↔ s.sticky = false ∧ t.err = .ok := by
  rw [step_packet hi] at h
  cases hd : decode p with
  | error e => rw [deliver_error hd] at h; cases h; simp
  | ok i => rw [deliver_ok hd] at h; exact (exec_sticky h :)

/-- Settles O34, by induction on the packets: the first one's step decides whether STICKY is clear where the rest of the run starts. -/
theorem stickyRecordsAnyRejection : Obligations.StickyRecordsAnyRejection := by
  intro packets
  induction packets with
  | nil =>
    intro s t _ hrun
    obtain rfl : s = t := Host.Outcome.next.inj hrun
    simp
  | cons p ps ih =>
    intro s t hi hrun
    rw [List.map_cons] at hi
    obtain ⟨u, hstep, hrest⟩ := step_of_core_run hrun
    rw [ih u t (step_of_packet_inputs hi hstep) hrest, step_of_packet_sticky hi hstep, and_assoc]
    refine and_congr_right fun _ => ⟨?_, fun hall => ⟨?_, ?_⟩⟩
    · rintro ⟨hfirst, hlater⟩ k v hk hv
      rw [core_run_of_step hstep] at hv
      cases k with
      | zero => obtain rfl : u = v := Host.Outcome.next.inj hv; exact hfirst
      | succ k => exact hlater k v (Nat.lt_of_succ_lt_succ hk) hv
    · exact hall 0 u (Nat.succ_pos _) (core_run_of_step hstep)
    · intro k v hk hv
      exact hall (k + 1) v (Nat.succ_lt_succ hk) ((core_run_of_step hstep).trans hv)

/-! The phase and ERR after a packet. -/

/-- Settles O35: a command that Decode accepts reports its code and goes to the phase of R37 where that is OK; every row is then a reading of the
order of checks. -/
theorem lifecycleTransitions : Obligations.LifecycleTransitions := by
  refine ⟨fun s p rest hinv hi => ?_, fun s rest hi => ⟨_, step_reset hi, rfl⟩⟩
  rw [step_packet hi]
  cases hd : decode p with
  | error e =>
    rw [deliver_error hd]
    exact ⟨_, rfl, fun _ _ => ⟨rfl, rfl⟩, nofun, nofun, nofun, nofun, nofun⟩
  | ok i =>
    obtain ⟨t, ht⟩ := (hinv.withInputs rest).exec_next i
    have herr : t.err = commandErr i s := (exec_err ht :)
    have hphase : t.phase = if commandErr i s = .ok then phaseAfter i else s.phase := (exec_phase ht :)
    refine ⟨t, (deliver_ok hd).trans ht, nofun, ?_, ?_, ?_, ?_, ?_⟩
    · rintro ps key custom ⟨⟩
      by_cases hok : commandErr (.construct ps key custom) s = .ok
      · exact .inl ⟨herr.trans hok, by rw [hphase, if_pos hok]; rfl⟩
      · exact .inr ⟨herr ▸ hok, by rw [hphase, if_neg hok]⟩
    · rintro data ⟨⟩
      split <;> simp_all [commandErr, phaseAfter]
    · rintro len ⟨⟩
      split_ifs <;> simp_all [commandErr, phaseAfter]
    · rintro ⟨⟩
      split <;> simp_all [commandErr, phaseAfter]
    · rintro n ⟨⟩
      split <;> simp_all [commandErr, phaseAfter]

/-- Settles O43: the only fault is a live phase without a collaborator record, which R35 rules out. -/
theorem stuckOnlyWithoutAnInstance : Obligations.StuckOnlyWithoutAnInstance := by
  intro s
  obtain ⟨t, ht⟩ | ⟨hsp, hphase, hfault⟩ := step_next_or_fault s
  · simp [ht]
  · exact ⟨fun _ _ => ⟨hsp, hphase, fun hinv => hinv.phaseInv.sp_ne_none hphase hsp⟩, by simp [hfault]⟩

/-- Settles O44: everything but a decoded command leaves the history as it is, and a command emits only what it asks for. -/
theorem onlyFixedAndReadEmit : Obligations.OnlyFixedAndReadEmit := by
  intro s t h
  change EmitsOnly (fun n => ∃ p rest, s.inputs = .packet p :: rest ∧
    (decode p = .ok (.finalizeFixed n) ∨ decode p = .ok (.read n))) s t
  rcases step_next_cases h with ⟨-, rfl⟩ | ⟨rest, -, rfl⟩ | ⟨rest, -, rfl⟩ | ⟨p, rest, e, -, -, rfl⟩ |
    ⟨p, rest, i, hi, hd, hexec⟩
  · exact .of_out_eq rfl
  · exact .of_out_eq rfl
  · exact .of_out_eq rfl
  · exact .of_out_eq rfl
  · have hemits : EmitsOnly (fun n => i = .finalizeFixed n ∨ i = .read n) s t := (exec_emits hexec :)
    refine hemits.imp fun n hcmd => ⟨p, rest, hi, ?_⟩
    rw [hd]
    exact hcmd.imp (congrArg _) (congrArg _)

/-- Settles O46: of the five things a step can do, reset and a decoded CONSTRUCT alone write the parameter set, and none the configuration. -/
theorem parameterSetAndConfigurationAreFixed : Obligations.ParameterSetAndConfigurationAreFixed := by
  intro s t h
  rcases step_next_cases h with ⟨-, rfl⟩ | ⟨rest, -, rfl⟩ | ⟨rest, hi, rfl⟩ | ⟨p, rest, e, -, -, rfl⟩ |
    ⟨p, rest, i, hi, hd, hexec⟩
  · exact ⟨rfl, .inl rfl⟩
  · exact ⟨rfl, .inl rfl⟩
  · exact ⟨rfl, .inr (.inl ⟨rest, hi, rfl⟩)⟩
  · exact ⟨rfl, .inl rfl⟩
  · refine ⟨(exec_cfg hexec :), (exec_pset hexec :).imp_right ?_⟩
    rintro ⟨herr, key, custom, hcmd⟩
    exact .inr ⟨p, rest, t.pset, key, custom, hi, hcmd ▸ hd, herr, rfl⟩

/-! The STATUS word. -/

/-- R28 as a sum: the fields do not overlap. -/
theorem State.toNat_status (s : State) :
    s.status.toNat = s.phase.code.toNat + 4 * s.pset.bit.toNat + 256 * s.err.code.toNat +
      4096 * (BitVec.ofBool s.sticky).toNat := by
  have packed : ∀ (a : BitVec 2) (b : BitVec 1) (c : BitVec 4) (d : BitVec 1),
      (a.zeroExtend 32 ||| (b.zeroExtend 32 <<< 2) ||| (c.zeroExtend 32 <<< 8) ||| (d.zeroExtend 32 <<< 12)).toNat =
        a.toNat + 4 * b.toNat + 256 * c.toNat + 4096 * d.toNat := by decide
  exact packed _ _ _ _

theorem State.status_fields (s : State) :
    s.status.extractLsb' 0 2 = s.phase.code ∧ s.status.extractLsb' 2 1 = s.pset.bit ∧
      s.status.extractLsb' 3 5 = 0 ∧ s.status.extractLsb' 8 4 = s.err.code ∧
      s.status.extractLsb' 12 1 = BitVec.ofBool s.sticky ∧ s.status.extractLsb' 13 19 = 0 := by
  have hphase := s.phase.code.isLt
  have hpset := s.pset.bit.isLt
  have herr := s.err.code.isLt
  have hsticky := (BitVec.ofBool s.sticky).isLt
  simp only [← BitVec.toNat_inj, BitVec.extractLsb'_toNat, State.toNat_status, Nat.shiftRight_eq_div_pow,
    BitVec.toNat_ofNat, BitVec.ofNat_eq_ofNat]
  omega

/-- Settles O36: the fields are the codes of the phase, the parameter set, ERR and STICKY. -/
theorem statusWordLayout : Obligations.StatusWordLayout := by
  intro s
  obtain ⟨hphase, hpset, hlow, herr, hsticky, hhigh⟩ := s.status_fields
  refine ⟨hphase.trans ?_, hpset.trans ?_, hlow, herr.trans ?_, hsticky.trans ?_, hhigh, rfl⟩
  · cases s.phase <;> rfl
  · cases s.pset <;> rfl
  · cases s.err <;> rfl
  · cases s.sticky <;> rfl

/-- Settles O37: the step is the record of the status read. -/
theorem statusReadHasNoSideEffect : Obligations.StatusReadHasNoSideEffect :=
  fun _ _ hi => step_readStatus hi

/-! The storage of the buffers. -/

theorem length_storageOf {b : Bytes} (h : b.length ≤ 168) : (storageOf b).length = 168 := by
  simp [storageOf, rate, h]

theorem take_storageOf (b : Bytes) : (storageOf b).take b.length = b := List.take_left

theorem eq_zero_of_mem_drop_storageOf {b : Bytes} {x : Byte} (h : x ∈ (storageOf b).drop b.length) : x = 0 := by
  rw [storageOf, List.drop_left] at h
  exact List.eq_of_mem_replicate h

theorem State.toNat_fill {s : State} (h : s.buf.length < 256) : s.fill.toNat = s.buf.length := by
  simp [State.fill, Nat.mod_eq_of_lt h]

/-- Settles O47: the invariant keeps both buffers under the rate, and the rate is at most 168. -/
theorem buffersFitTheirStorage : Obligations.BuffersFitTheirStorage := by
  intro s h
  have hbuf := h.phaseInv.length_buf_lt
  have hpend := h.phaseInv.length_pend_lt
  have hrate := rate_le s.pset
  exact ⟨State.toNat_fill (by omega), by omega, length_storageOf (by omega), take_storageOf _,
    fun _ => eq_zero_of_mem_drop_storageOf, length_storageOf (by omega), fun _ => eq_zero_of_mem_drop_storageOf⟩

end Sys2Proof.Machine

namespace Sys2Proof.Machine

/-- Settles O31: taking the packet, decoding it and executing the command is one step, and an empty queue leaves nothing to take. -/
theorem stepRunsTheDecodedCommand : Obligations.StepRunsTheDecodedCommand := by
  constructor
  · intro s p rest i hi hd
    calc
      step s = deliver exec p { s with inputs := rest } := step_packet hi
      _ = exec i { s with inputs := rest } := deliver_ok hd
  · intro s hi
    exact step_idle hi

end Sys2Proof.Machine

namespace Sys2Proof

/-! Decode and the encoder (30_encoding.md): an accepted packet is the header of its opcode, then ARG where the opcode has one, then the payload. -/

/-- The packet lengths of an opcode's row (R85), with a CONSTRUCT's KEYLEN inside its payload. -/
def Opcode.Fits : Opcode → Bytes → Prop
  | .construct, p => 12 ≤ p.length ∧ argOf p ≤ p.length - 12
  | .update, _ => True
  | .finalizeFixed, p => p.length = 12
  | .finalizeXof, p => p.length = 4
  | .read, p => p.length = 12

/-- The command that an opcode's row reads from a packet that fits it (R85). -/
def Opcode.command : Opcode → ParamSet → Bytes → Instr
  | .construct, ps, p => .construct ps (slice p 12 (12 + argOf p)) (p.drop (12 + argOf p))
  | .update, _, p => .update (p.drop 4)
  | .finalizeFixed, _, p => .finalizeFixed (argOf p)
  | .finalizeXof, _, _ => .finalizeXof
  | .read, _, p => .read (argOf p)

theorem ite_error_eq_ok_iff {c : Prop} [Decidable c] {e : DecodeReject} {x : Except DecodeReject Instr} {i : Instr} :
    (if c then .error e else x) = .ok i ↔ ¬c ∧ x = .ok i := by
  split_ifs with hc <;> simp [hc]

theorem decodeBody_eq_ok_iff {op : Opcode} {ps : ParamSet} {p : Bytes} {i : Instr} :
    decodeBody op ps p = .ok i ↔ op.Fits p ∧ op.command ps p = i := by
  cases op <;>
    simp only [decodeBody, Opcode.Fits, Opcode.command, ite_error_eq_ok_iff, ne_eq, not_not, not_lt, Except.ok.injEq,
      and_assoc, true_and]

theorem decode_eq_ok_iff {p : Bytes} {i : Instr} :
    decode p = .ok i ↔ ∃ op b, 4 ≤ p.length ∧ be (p.take 4) = (headerWord op b).toNat ∧ (b = 0 ∨ op = .construct) ∧
      op.Fits p ∧ op.command (ParamSet.ofBit b) p = i := by
  constructor
  · intro h
    obtain ⟨op, b, h4, hheader, hb, hbody⟩ := decode_ok h
    exact ⟨op, b, h4, hheader, hb, decodeBody_eq_ok_iff.1 hbody⟩
  · rintro ⟨op, b, h4, hheader, hb, hbody⟩
    exact (decode_of_header h4 hheader hb).trans (decodeBody_eq_ok_iff.2 hbody)

theorem argOf_lt (p : Bytes) : argOf p < 2 ^ 64 := by
  have hlen : (slice p 4 12).length ≤ 8 := by rw [length_slice]; omega
  calc argOf p < 256 ^ (slice p 4 12).length := be_lt _
    _ ≤ 256 ^ 8 := Nat.pow_le_pow_right (by norm_num) hlen
    _ = 2 ^ 64 := by norm_num

/-! From a command to its packet and back. -/

theorem argOf_header_append (h : Nat) {x : Nat} (hx : x < 2 ^ 64) (t : Bytes) :
    argOf (beBytes 4 h ++ (beBytes 8 x ++ t)) = x := by
  rw [argOf_eq, List.drop_left' (length_beBytes 4 h), List.take_left' (length_beBytes 8 x)]
  exact be_beBytes hx

theorem argOf_header_arg (h : Nat) {x : Nat} (hx : x < 2 ^ 64) : argOf (beBytes 4 h ++ beBytes 8 x) = x := by
  simpa using argOf_header_append h hx []

theorem drop_header_arg_append (h x : Nat) (t : Bytes) : (beBytes 4 h ++ (beBytes 8 x ++ t)).drop 12 = t := by
  rw [← List.append_assoc]
  exact List.drop_left' (by simp)

theorem decode_header_append {op : Opcode} {b : BitVec 1} (hb : b = 0 ∨ op = .construct) {t : Bytes} {i : Instr}
    (hfits : op.Fits (beBytes 4 (headerWord op b).toNat ++ t))
    (hcommand : op.command (ParamSet.ofBit b) (beBytes 4 (headerWord op b).toNat ++ t) = i) :
    decode (beBytes 4 (headerWord op b).toNat ++ t) = .ok i := by
  refine decode_eq_ok_iff.2 ⟨op, b, by simp, ?_, hb, hfits, hcommand⟩
  rw [List.take_left' (length_beBytes 4 _)]
  exact be_beBytes (headerWord op b).isLt

theorem decode_encode_construct (ps : ParamSet) {key : Bytes} (hkey : key.length < 2 ^ 64) (custom : Bytes) :
    decode (encode (.construct ps key custom)) = .ok (.construct ps key custom) := by
  have harg := argOf_header_append (headerWord .construct ps.bit).toNat hkey (key ++ custom)
  have hpayload := drop_header_arg_append (headerWord .construct ps.bit).toNat key.length (key ++ custom)
  rw [encode, List.append_assoc, List.append_assoc]
  refine decode_header_append (.inr rfl) ?_ ?_
  · rw [Opcode.Fits, harg, ← List.length_drop, hpayload]
    simp
    omega
  · rw [Opcode.command, harg, slice, ← List.drop_drop, hpayload]
    simp

/-- Settles O2: the header sends the packet to its opcode's row, and the row reads the operands back. -/
theorem decodeOfEncodeIsIdentity : Obligations.DecodeOfEncodeIsIdentity := by
  intro i hwf
  cases i with
  | construct ps key custom =>
    have hlen : 12 + key.length + custom.length < 2 ^ 64 := of_decide_eq_true hwf
    exact decode_encode_construct ps (by omega) custom
  | update data =>
    exact decode_header_append (.inl rfl) trivial (by simp [Opcode.command])
  | finalizeFixed len =>
    exact decode_header_append (.inl rfl) (by simp [Opcode.Fits])
      (congrArg Instr.finalizeFixed (argOf_header_arg _ (of_decide_eq_true hwf)))
  | finalizeXof => decide
  | read count =>
    exact decode_header_append (.inl rfl) (by simp [Opcode.Fits])
      (congrArg Instr.read (argOf_header_arg _ (of_decide_eq_true hwf)))

theorem header_append_drop {p : Bytes} {h : Nat} (h4 : 4 ≤ p.length) (hheader : be (p.take 4) = h) :
    beBytes 4 h ++ p.drop 4 = p := by
  rw [beBytes_eq_of_be (by simp [h4]) hheader, List.take_append_drop]

theorem arg_append_drop {p : Bytes} (h12 : 12 ≤ p.length) : beBytes 8 (argOf p) ++ p.drop 12 = p.drop 4 := by
  have hlen : ((p.drop 4).take 8).length = 8 := by simp; omega
  calc beBytes 8 (argOf p) ++ p.drop 12 = (p.drop 4).take 8 ++ (p.drop 4).drop 8 := by
        rw [beBytes_eq_of_be hlen (argOf_eq p).symm, List.drop_drop]
    _ = p.drop 4 := List.take_append_drop 8 _

theorem header_append_arg {p : Bytes} {h : Nat} (h12 : p.length = 12) (hheader : be (p.take 4) = h) :
    beBytes 4 h ++ beBytes 8 (argOf p) = p := by
  have hp := header_append_drop (by omega) hheader
  rwa [← arg_append_drop h12.ge, List.drop_eq_nil_of_le h12.le, List.append_nil] at hp

theorem length_key {p : Bytes} (hfits : Opcode.construct.Fits p) : (slice p 12 (12 + argOf p)).length = argOf p := by
  obtain ⟨-, hkey⟩ := hfits
  rw [length_slice]; omega

theorem key_append_custom (p : Bytes) : slice p 12 (12 + argOf p) ++ p.drop (12 + argOf p) = p.drop 12 := by
  rw [slice, Nat.add_sub_cancel_left, ← List.drop_drop, List.take_append_drop]

theorem encode_command {op : Opcode} {b : BitVec 1} {p : Bytes} (h4 : 4 ≤ p.length)
    (hheader : be (p.take 4) = (headerWord op b).toNat) (hb : b = 0 ∨ op = .construct) (hfits : op.Fits p) :
    encode (op.command (ParamSet.ofBit b) p) = p := by
  have hp := header_append_drop h4 hheader
  cases op with
  | construct =>
    rw [Opcode.command, encode, length_key hfits, ParamSet.bit_ofBit, List.append_assoc, key_append_custom,
      List.append_assoc, arg_append_drop hfits.1, hp]
  | update =>
    obtain rfl : b = 0 := hb.resolve_right nofun
    exact hp
  | finalizeFixed =>
    obtain rfl : b = 0 := hb.resolve_right nofun
    exact header_append_arg hfits hheader
  | finalizeXof =>
    obtain rfl : b = 0 := hb.resolve_right nofun
    rwa [List.drop_eq_nil_of_le (Nat.le_of_eq hfits), List.append_nil] at hp
  | read =>
    obtain rfl : b = 0 := hb.resolve_right nofun
    exact header_append_arg hfits hheader

theorem wf_command {op : Opcode} {p : Bytes} (ps : ParamSet) (hlen : p.length < 2 ^ 64) (h4 : 4 ≤ p.length)
    (hfits : op.Fits p) : (op.command ps p).wf = true := by
  cases op with
  | construct =>
    have ⟨h12, hkey⟩ := hfits
    simp only [Opcode.command, Instr.wf, length_key hfits, List.length_drop, decide_eq_true_eq]
    omega
  | update =>
    simp only [Opcode.command, Instr.wf, List.length_drop, decide_eq_true_eq]
    omega
  | finalizeFixed => exact decide_eq_true (argOf_lt p)
  | finalizeXof => rfl
  | read => exact decide_eq_true (argOf_lt p)

/-- Settles O3: each part of an accepted packet is the encoder's, and its length bounds the operands. -/
theorem encodeOfDecodeIsIdentity : Obligations.EncodeOfDecodeIsIdentity := by
  intro p i hlen hd
  obtain ⟨op, b, h4, hheader, hb, hfits, rfl⟩ := decode_eq_ok_iff.1 hd
  exact ⟨encode_command h4 hheader hb hfits, wf_command _ hlen h4 hfits⟩

/-! The six kinds of rejected packet (R87), and the rows of the accepted ones (R85). -/

/-- Every opcode byte from 1 to 5 is assigned (R84). -/
theorem exists_opcode_code {n : Nat} (h1 : 1 ≤ n) (h5 : n ≤ 5) : ∃ op : Opcode, op.code.toNat = n := by
  interval_cases n
  exacts [⟨.construct, rfl⟩, ⟨.update, rfl⟩, ⟨.finalizeFixed, rfl⟩, ⟨.finalizeXof, rfl⟩, ⟨.read, rfl⟩]

theorem Opcode.one_le_code_le_five (op : Opcode) : 1 ≤ op.code.toNat ∧ op.code.toNat ≤ 5 := by
  cases op <;> decide

theorem Opcode.eq_construct_iff {op : Opcode} : op = .construct ↔ op.code.toNat = 1 := by
  cases op <;> decide

theorem Opcode.fits_iff {op : Opcode} {p : Bytes} :
    op.Fits p ↔
      (op.code.toNat = 1 → 12 ≤ p.length ∧ argOf p ≤ p.length - 12) ∧ (op.code.toNat = 3 → p.length = 12) ∧
        (op.code.toNat = 4 → p.length = 4) ∧ (op.code.toNat = 5 → p.length = 12) := by
  cases op <;> simp [Opcode.Fits, Opcode.code]

/-- Decode accepts a packet exactly when some opcode's row describes it, in numbers. -/
theorem exists_decode_ok_iff {p : Bytes} :
    (∃ i, decode p = .ok i) ↔ ∃ (op : Opcode) (b : BitVec 1), 4 ≤ p.length ∧
      be (p.take 4) = op.code.toNat + 256 * b.toNat ∧ (b.toNat = 0 ∨ op.code.toNat = 1) ∧ op.Fits p := by
  simp only [decode_eq_ok_iff, headerWord_toNat, Opcode.eq_construct_iff, ← BitVec.toNat_inj]
  constructor
  · rintro ⟨i, op, b, h4, hheader, hb, hfits, -⟩
    exact ⟨op, b, h4, hheader, hb, hfits⟩
  · rintro ⟨op, b, h4, hheader, hb, hfits⟩
    exact ⟨_, op, b, h4, hheader, hb, hfits, rfl⟩

theorem headerWord_construct : ∀ b : BitVec 1,
    headerWord .construct b &&& 0xFFFFFEFF = 0x00000001 ∧
      (ParamSet.ofBit b = .kmac256 ↔ headerWord .construct b = 0x00000101) := by decide

/-- Settles O5: the header is the opcode's header word, and the rest is what the opcode's row reads. -/
theorem acceptedPacketMatchesItsRow : Obligations.AcceptedPacketMatchesItsRow := by
  intro p i hd
  obtain ⟨op, b, h4, hheader, hb, hfits, rfl⟩ := decode_eq_ok_iff.1 hd
  rw [← headerOf_toNat, BitVec.toNat_inj] at hheader
  cases op with
  | construct =>
    have ⟨h12, hkey⟩ := hfits
    have hrow := headerWord_construct b
    rw [← hheader] at hrow
    change _ ∧ _ ∧ _ ∧ (slice p 12 (12 + argOf p)).length = argOf p ∧ _
    rw [length_key hfits]
    refine ⟨hrow.1, hrow.2, h12, rfl, hkey, ?_, rfl, ?_⟩
    · rw [slice, Nat.add_sub_cancel_left]
    · rw [List.length_drop, Nat.sub_add_eq]
  | update =>
    obtain rfl : b = 0 := hb.resolve_right nofun
    exact ⟨by rw [hheader]; decide, h4, rfl, List.length_drop⟩
  | finalizeFixed =>
    obtain rfl : b = 0 := hb.resolve_right nofun
    exact ⟨by rw [hheader]; decide, hfits, argOf_eq p, argOf_lt p⟩
  | finalizeXof =>
    obtain rfl : b = 0 := hb.resolve_right nofun
    exact ⟨by rw [hheader]; decide, hfits⟩
  | read =>
    obtain rfl : b = 0 := hb.resolve_right nofun
    exact ⟨by rw [hheader]; decide, hfits, argOf_eq p, argOf_lt p⟩

/-- Settles O1: each packet is evaluated. -/
theorem workedPacketsDecode : Obligations.WorkedPacketsDecode := by
  unfold Obligations.WorkedPacketsDecode
  decide

end Sys2Proof

namespace Sys2Proof.Machine

theorem not_decode_error_iff {p : Bytes} : (¬∃ e, decode p = .error e) ↔ ∃ i, decode p = .ok i := by
  cases decode p <;> simp

/-- Settles O4: a packet in none of the six cases has an assigned opcode's header and fits that opcode, and an accepted packet is in none of them. -/
theorem illegalPacketsAreTheSixCases : Obligations.IllegalPacketsAreTheSixCases := by
  refine ⟨fun p => ?_, fun s p rest e hi hd => (step_packet hi).trans (deliver_error hd)⟩
  rw [← not_iff_not, not_decode_error_iff, exists_decode_ok_iff, ← argOf_eq]
  constructor
  · rintro ⟨op, b, h4, hheader, hb, hfits⟩
    have hcode := op.one_le_code_le_five
    have hbit := b.isLt
    rw [Opcode.fits_iff] at hfits
    omega
  · intro hlegal
    obtain ⟨op, hop⟩ := exists_opcode_code (n := be (p.take 4) % 256) (by omega) (by omega)
    have hbit := BitVec.toNat_ofNat (be (p.take 4) / 256) 1
    refine ⟨op, BitVec.ofNat 1 (be (p.take 4) / 256), ?_⟩
    rw [Opcode.fits_iff]
    omega

/-! The assembler (R89, R90): lines one after another, and the hexadecimal form of a byte string. -/

theorem assemble_cons {cur : Option ParamSet} {line : AsmLine} {is : List Instr} (h : line.expand cur = some is)
    (rest : List AsmLine) :
    assemble cur (line :: rest) = (assemble (is.foldl paramSetAfter cur) rest).map (is.map encode ++ ·) := by
  rw [assemble, h]

theorem assemble_singleton (cur : Option ParamSet) (line : AsmLine) :
    assemble cur [line] = (line.expand cur).map (·.map encode) := by
  rw [assemble]
  cases line.expand cur <;> simp [assemble]

theorem assemble_commands (cur : Option ParamSet) (is : List Instr) (rest : List AsmLine) :
    assemble cur (is.map .command ++ rest) =
      (assemble (is.foldl paramSetAfter cur) rest).map (is.map encode ++ ·) := by
  induction is generalizing cur with
  | nil => simp
  | cons i is ih =>
    rw [List.map_cons, List.cons_append, assemble_cons rfl, List.foldl_cons, List.foldl_nil, ih, Option.map_map]
    rfl

/-- Lines that assemble leave a parameter set with which the lines after them assemble. -/
theorem assemble_append {cur : Option ParamSet} {before : List AsmLine} {packets : List Bytes}
    (h : assemble cur before = some packets) :
    ∃ cur', ∀ rest, assemble cur (before ++ rest) = (assemble cur' rest).map (packets ++ ·) := by
  induction before generalizing cur packets with
  | nil =>
    cases h
    exact ⟨cur, by simp⟩
  | cons line before ih =>
    cases hline : line.expand cur with
    | none => simp [assemble, hline] at h
    | some is =>
      rw [assemble_cons hline, Option.map_eq_some_iff] at h
      obtain ⟨tail, htail, rfl⟩ := h
      obtain ⟨cur', hrest⟩ := ih htail
      refine ⟨cur', fun rest => ?_⟩
      rw [List.cons_append, assemble_cons hline, hrest, Option.map_map]
      simp [Function.comp_def]

theorem paramSetAfter_of_not_construct {i : Instr} (h : ∀ ps key custom, i ≠ .construct ps key custom)
    (cur : Option ParamSet) : paramSetAfter cur i = cur := by
  cases i with
  | construct ps key custom => exact absurd rfl (h ps key custom)
  | _ => rfl

theorem foldl_paramSetAfter_of_no_construct {is : List Instr}
    (h : ∀ i ∈ is, ∀ ps key custom, i ≠ .construct ps key custom) (cur : Option ParamSet) :
    is.foldl paramSetAfter cur = cur := by
  induction is with
  | nil => rfl
  | cons i is ih =>
    rw [List.foldl_cons, paramSetAfter_of_not_construct (h i (by simp)), ih fun j hj => h j (by simp [hj])]

/-- Settles O6: the lines before leave some parameter set, the CONSTRUCT replaces it, and the commands between keep that one. -/
theorem pseudoCommandsExpand : Obligations.PseudoCommandsExpand := by
  constructor
  · intro before packets ps key custom between hbefore hbetween
    obtain ⟨cur, hrest⟩ := assemble_append hbefore
    have hset : (Instr.construct ps key custom :: between).foldl paramSetAfter cur = some ps :=
      foldl_paramSetAfter_of_no_construct hbetween (some ps)
    have hlast : assemble (some ps) [.fixedDefault] = some [encode (.finalizeFixed (defaultLen ps))] :=
      assemble_singleton _ _
    have hcommands := assemble_commands cur (.construct ps key custom :: between) [.fixedDefault]
    rw [hset, hlast, List.map_cons, List.map_cons] at hcommands
    rw [List.append_assoc, hrest, hcommands, List.append_assoc]
    rfl
  · intro cur ps key custom msg len n
    exact ⟨assemble_singleton _ _, assemble_singleton _ _, assemble_singleton _ _⟩

/-- An upper-case hexadecimal digit. -/
def upperHex (n : Nat) : Char := "0123456789ABCDEF".toList.getD n '0'

/-- Two upper-case hexadecimal digits for each byte. -/
def hexPairs (data : Bytes) : List Char :=
  (data.map fun b => [upperHex (b.toNat / 16), upperHex (b.toNat % 16)]).flatten

theorem hexDigit_upperHex {n : Nat} (h : n < 16) : hexDigit (upperHex n) = some n := by
  interval_cases n <;> decide

theorem hexBody_cons {a b : Char} {x y : Nat} {cs rest : List Char} {bs : Bytes} (ha : hexDigit a = some x)
    (hb : hexDigit b = some y) (hcs : hexBody cs = some (bs, rest)) :
    hexBody (a :: b :: cs) = some (BitVec.ofNat 8 (16 * x + y) :: bs, rest) := by
  have hquote : a ≠ '"' := by rintro rfl; cases ha
  have hspace : a ≠ ' ' := by rintro rfl; cases ha
  simp [hexBody, hquote, hspace, ha, hb, hcs]

theorem hexBody_hexPairs (data : Bytes) : hexBody (hexPairs data ++ ['"']) = some (data, []) := by
  induction data with
  | nil => rfl
  | cons b data ih =>
    have hbyte := b.isLt
    have hvalue : BitVec.ofNat 8 (16 * (b.toNat / 16) + b.toNat % 16) = b := by
      rw [Nat.div_add_mod, BitVec.ofNat_toNat, BitVec.setWidth_eq]
    have hpair := hexBody_cons (hexDigit_upperHex (n := b.toNat / 16) (by omega))
      (hexDigit_upperHex (n := b.toNat % 16) (by omega)) ih
    rwa [hvalue] at hpair

theorem parseOperands_update {cs : List Char} {data : Bytes} (h : bytesLiteral (skipSpaces cs) = some (data, [])) :
    parseOperands "UPDATE".toList cs = some (.command (.update data)) := by
  have hbranch : parseOperands "UPDATE".toList cs =
      (bytesLiteral (skipSpaces cs)).bind fun x => endOfLine (.command (.update x.1)) x.2 := rfl
  rw [hbranch, h]
  rfl

theorem parseLine_update_hex {body : List Char} {data : Bytes} (h : hexBody body = some (data, [])) :
    parseLine ("UPDATE x\"".toList ++ body) = some (.command (.update data)) := by
  have hword : parseLine ("UPDATE x\"".toList ++ body) = parseOperands "UPDATE".toList (" x\"".toList ++ body) := rfl
  rw [hword]
  exact parseOperands_update h

theorem assembleText_singleton {text : List Char} {line : AsmLine} (hblank : isBlankLine text = false)
    (hline : parseLine text = some line) : assembleText [text] = assemble none [line] := by
  simp [assembleText, hblank, hline]

/-- Settles O7: the quoted digits read back as the bytes, so the line is an UPDATE with them. -/
theorem hexTextOfAnUpdateAssembles : Obligations.HexTextOfAnUpdateAssembles := by
  intro data
  have hline := parseLine_update_hex (hexBody_hexPairs data)
  calc
    _ = assembleText ["UPDATE x\"".toList ++ (hexPairs data ++ ['"'])] := by rw [← List.append_assoc]; rfl
    _ = assemble none [.command (.update data)] := assembleText_singleton rfl hline
    _ = some [encode (.update data)] := assemble_singleton _ _

end Sys2Proof.Machine

namespace Sys2Proof.Machine

/-! The byte encodings (40_byte_encoding.md): the digits of enc_b, and the thresholds of its length. -/

theorem getElem?_beBytes {n i : Nat} (h : i < n) (x : Nat) :
    (beBytes n x)[i]? = some (BitVec.ofNat 8 (x / 256 ^ (n - 1 - i) % 256)) := by
  simp [beBytes, h]

theorem le_nbytes_iff {x m : Nat} (hm : 1 ≤ m) (hx : x ≠ 0) : m ≤ nbytes x ↔ 256 ^ (m - 1) ≤ x := by
  obtain rfl | hm := hm.eq_or_lt
  · simpa [one_le_nbytes] using Nat.one_le_iff_ne_zero.2 hx
  · have hpred := nbytes_le_iff (x := x) (m := m - 1) (by omega)
    omega

theorem nbytes_eq_iff {x m : Nat} (hm : 1 ≤ m) (hx : x ≠ 0) : nbytes x = m ↔ 256 ^ (m - 1) ≤ x ∧ x < 256 ^ m := by
  rw [← le_nbytes_iff hm hx, ← nbytes_le_iff hm, and_comm]
  exact le_antisymm_iff

theorem pow_pred_nbytes_le {x : Nat} (hx : x ≠ 0) : 256 ^ (nbytes x - 1) ≤ x :=
  (le_nbytes_iff (one_le_nbytes x) hx).1 le_rfl

theorem head?_encB_ne_zero {x : Nat} (hx : x ≠ 0) : (encB x).head? ≠ some 0 := by
  have hn := one_le_nbytes x
  have hdigit : x / 256 ^ (nbytes x - 1) % 256 ≠ 0 := by
    have hpos : 0 < x / 256 ^ (nbytes x - 1) := Nat.div_pos (pow_pred_nbytes_le hx) (by positivity)
    have hlt : x / 256 ^ (nbytes x - 1) < 256 := by
      rw [Nat.div_lt_iff_lt_mul (by positivity), ← pow_succ', Nat.sub_add_cancel hn]
      exact lt_pow_nbytes x
    omega
  rw [List.head?_eq_getElem?, encB, getElem?_beBytes hn, Nat.sub_zero, ne_eq, Option.some_inj, ← BitVec.toNat_inj]
  simpa using hdigit

/-- Settles O8: the digits are enc_b's definition, and the first one is nonzero since x reaches 256^(nbytes(x)-1). -/
theorem encBIsMinimalBigEndian : Obligations.EncBIsMinimalBigEndian := by
  intro x
  exact ⟨length_encB x, fun i hi => getElem?_beBytes hi x, be_encB x, fun hx => head?_encB_ne_zero hx.ne', by decide⟩

/-- R111: the threshold for a number of bits that is 8·k. -/
theorem nbytes_eight_mul_le_iff {m : Nat} (hm : 1 ≤ m) (k : Nat) : nbytes (8 * k) ≤ m ↔ k < 2 ^ (8 * m - 3) := by
  have hpow : 256 ^ m = 8 * 2 ^ (8 * m - 3) := by
    calc 256 ^ m = 2 ^ (8 * m) := (pow_mul 2 8 m).symm
      _ = 2 ^ (3 + (8 * m - 3)) := by rw [Nat.add_sub_cancel' (by omega)]
      _ = 8 * 2 ^ (8 * m - 3) := pow_add 2 3 _
  rw [nbytes_le_iff hm, hpow]
  exact Nat.mul_lt_mul_left (by norm_num)

/-- Settles O9: every threshold is read off nbytes(x) ≤ m ↔ x < 256^m. -/
theorem nbytesThresholds : Obligations.NbytesThresholds := by
  refine ⟨fun x => ⟨(length_encB x).symm, by rw [nbytes, bitlen_eq_size]⟩, fun x hx => ?_,
    fun x m hm hx => nbytes_eq_iff hm hx, fun k m hm => nbytes_eight_mul_le_iff hm k, fun k lim hlim _ => ?_⟩
  · exact ((nbytes_le_iff le_rfl).2 (by omega)).antisymm (one_le_nbytes x)
  · rw [encodable, decide_eq_true_iff, nbytes_eight_mul_le_iff hlim]

/-! The laws of the encodings (R121): the length byte says where an encoding ends, or begins. -/

theorem leftEncode_append_inj {x y : Nat} {t t' : Bytes} (hx : nbytes x ≤ 255) (hy : nbytes y ≤ 255)
    (h : leftEncode x ++ t = leftEncode y ++ t') : x = y ∧ t = t' := by
  obtain ⟨hbyte, hrest⟩ := List.cons.inj h
  have hlen : (encB x).length = (encB y).length := by
    rw [length_encB, length_encB, ofNat_eight_injective hx hy hbyte]
  obtain ⟨hdigits, ht⟩ := List.append_inj hrest hlen
  exact ⟨encB_injective hdigits, ht⟩

theorem append_rightEncode_inj {x y : Nat} {t t' : Bytes} (hx : nbytes x ≤ 255) (hy : nbytes y ≤ 255)
    (h : t ++ rightEncode x = t' ++ rightEncode y) : x = y ∧ t = t' := by
  rw [rightEncode, rightEncode, ← List.append_assoc, ← List.append_assoc] at h
  obtain ⟨hrest, hbyte⟩ := List.append_inj' h rfl
  have hlen : (encB x).length = (encB y).length := by
    rw [length_encB, length_encB, ofNat_eight_injective hx hy (List.singleton_inj.1 hbyte)]
  obtain ⟨ht, hdigits⟩ := List.append_inj' hrest hlen
  exact ⟨encB_injective hdigits, ht⟩

theorem leftEncode_eq_of_prefix {x y : Nat} (hx : nbytes x ≤ 255) (hy : nbytes y ≤ 255)
    (h : leftEncode x <+: leftEncode y) : x = y := by
  obtain ⟨t, ht⟩ := h
  exact (leftEncode_append_inj hx hy (ht.trans (List.append_nil _).symm)).1

theorem rightEncode_eq_of_suffix {x y : Nat} (hx : nbytes x ≤ 255) (hy : nbytes y ≤ 255)
    (h : rightEncode x <:+ rightEncode y) : x = y := by
  obtain ⟨t, ht⟩ := h
  exact (append_rightEncode_inj hx hy (t' := []) ht).1

theorem encodeString_append_inj {s s' t t' : Bytes} (hs : nbytes (8 * s.length) ≤ 255)
    (hs' : nbytes (8 * s'.length) ≤ 255) (h : encodeString s ++ t = encodeString s' ++ t') : s = s' ∧ t = t' := by
  rw [encodeString, encodeString, List.append_assoc, List.append_assoc] at h
  obtain ⟨hbits, hrest⟩ := leftEncode_append_inj hs hs' h
  have hlen : s.length = s'.length := Nat.eq_of_mul_eq_mul_left (by norm_num) hbits
  exact List.append_inj hrest hlen

/-- Settles O10: left_encode followed by anything, and anything followed by right_encode, gives back its parts. -/
theorem encodingsFrameUnambiguously : Obligations.EncodingsFrameUnambiguously := by
  refine ⟨fun x y hx hy => ⟨fun h => ?_, fun h => ?_, leftEncode_eq_of_prefix hx hy, rightEncode_eq_of_suffix hx hy,
    fun hpos h => ?_⟩, fun s s' t t' => encodeString_append_inj, fun x w => bytepad_length_mod⟩
  · exact leftEncode_eq_of_prefix hx hy (h ▸ List.prefix_rfl)
  · exact rightEncode_eq_of_suffix hx hy (h ▸ List.suffix_rfl)
  · have hzero : x = 0 := rightEncode_eq_of_suffix hx (by decide) (h ▸ List.suffix_rfl)
    omega

/-! The key block (R119) and the length suffixes (R120). -/

/-- U, the length of the key block before padding (R119). -/
def keyBlockUnpadded (key : Bytes) : Nat := 2 + 1 + nbytes (8 * key.length) + key.length

theorem leftEncode_rate (ps : ParamSet) : leftEncode (rate ps) = [0x01, BitVec.ofNat 8 (rate ps)] := by
  cases ps <;> decide

theorem length_keyBlockContent (key : Bytes) (ps : ParamSet) :
    (leftEncode (rate ps) ++ encodeString key).length = keyBlockUnpadded key := by
  simp only [leftEncode_rate, encodeString, bitLength, keyBlockUnpadded, List.length_append, length_leftEncode,
    List.length_cons, List.length_nil]
  omega

theorem length_keyBlock (key : Bytes) (ps : ParamSet) :
    (keyBlock key ps).length = rate ps * ((keyBlockUnpadded key + rate ps - 1) / rate ps) := by
  rw [keyBlock, length_bytepad (rate_pos ps), length_keyBlockContent]

theorem bytepad_eq_append_zeros (x : Bytes) (w : Nat) :
    bytepad x w = leftEncode w ++ x ++ zeros ((bytepad x w).length - (leftEncode w ++ x).length) := by
  simp only [bytepad, List.length_append, length_zeros, Nat.add_sub_cancel_left]

theorem keyBlock_eq (key : Bytes) (ps : ParamSet) :
    keyBlock key ps = [0x01, BitVec.ofNat 8 (rate ps)] ++ [BitVec.ofNat 8 (nbytes (8 * key.length))] ++
      encB (8 * key.length) ++ key ++
      zeros (rate ps * ((keyBlockUnpadded key + rate ps - 1) / rate ps) - keyBlockUnpadded key) := by
  have h := bytepad_eq_append_zeros (encodeString key) (rate ps)
  rw [← keyBlock, length_keyBlock, length_keyBlockContent, leftEncode_rate] at h
  simpa only [encodeString, leftEncode, bitLength, List.append_assoc, List.cons_append, List.nil_append] using h

theorem one_le_keyBlock_blocks (key : Bytes) (ps : ParamSet) :
    1 ≤ (keyBlockUnpadded key + rate ps - 1) / rate ps := by
  apply Nat.div_pos _ (rate_pos ps)
  unfold keyBlockUnpadded
  omega

theorem length_keyBlock_of_length {key : Bytes} {n : Nat} (h : key.length = n) (ps : ParamSet) :
    (keyBlock key ps).length = rate ps * ((2 + 1 + nbytes (8 * n) + n + rate ps - 1) / rate ps) := by
  rw [length_keyBlock, keyBlockUnpadded, h]

/-- Settles O11: the key block is R119's content and then zeros up to its length; a corner case is the length for its |K|. -/
theorem keyBlockBytes : Obligations.KeyBlockBytes := by
  have hlen {key : Bytes} {n : Nat} (h : key.length = n) := length_keyBlock_of_length h
  refine ⟨fun key ps => ?_, fun key h => ⟨hlen h _, hlen h _⟩, fun key h => hlen h _, fun key h => hlen h _,
    fun key h => hlen h _, fun key h => hlen h _, fun key h => ⟨hlen h _, hlen h _⟩⟩
  cases ps with
  | kmac128 => exact ⟨keyBlock_eq key _, length_keyBlock key _, one_le_keyBlock_blocks key .kmac128⟩
  | kmac256 => exact ⟨keyBlock_eq key _, length_keyBlock key _, one_le_keyBlock_blocks key .kmac256⟩

/-- R141, R217: only CONSTRUCT checks that a length can be encoded. -/
theorem commandErr_ne_invalidLength {i : Instr} (hi : ∀ ps key custom, i ≠ .construct ps key custom) (s : State) :
    commandErr i s ≠ .invalidLength := by
  intro h
  cases i with
  | construct ps key custom => exact hi ps key custom rfl
  | _ => simp only [commandErr] at h; split_ifs at h

theorem exec_err_ne_invalidLength {i : Instr} (hi : ∀ ps key custom, i ≠ .construct ps key custom) {s t : State}
    (h : exec i s = .next t) : t.err ≠ .invalidLength := by
  rw [exec_err h]
  exact commandErr_ne_invalidLength hi s

/-- Settles O12: 8·L is below 2^67, so its length byte is at most 9, and only CONSTRUCT checks a length. -/
theorem lengthSuffixes : Obligations.LengthSuffixes := by
  refine ⟨fun len _ hlen => ⟨rfl, length_fixedSuffix_le hlen, nbytes_le_nine (by omega)⟩, xofSuffix_eq, by decide,
    by decide, by decide, by decide, fun s t len h => ?_⟩
  obtain h | h := h
  · exact exec_err_ne_invalidLength (by simp) h
  · exact exec_err_ne_invalidLength (by simp) h

end Sys2Proof.Machine

namespace Sys2Proof.Machine

/-! CONSTRUCT (41_construct_update.md): its packet, its rejections and what it begins. -/

theorem construct_header : ∀ b : BitVec 1,
    beBytes 4 (headerWord .construct b).toNat = [0x00, 0x00, b.zeroExtend 8, 0x01] := by decide

/-- A CONSTRUCT whose checks do not all pass writes the code of the first that fails, and STICKY (R141, R143). -/
theorem exec_construct_rejected {ps : ParamSet} {key custom : Bytes} {s : State} {e : ErrCode} (hne : e ≠ .ok)
    (he : commandErr (.construct ps key custom) s = e) :
    exec (.construct ps key custom) s = .next (s.reject e) := by
  obtain ⟨e', -, he', hx⟩ | ⟨-, hok, -⟩ := execConstruct_cases ps key custom s
  · obtain rfl : e = e' := he.symm.trans he'
    exact hx
  · exact absurd (he.symm.trans hok) hne

theorem exec_construct_accepted {ps : ParamSet} {key custom : Bytes} {s : State} (h : Accepts s key custom) :
    exec (.construct ps key custom) s = .next (beginInstance ps key custom s) :=
  execConstruct_accepted h

/-- The SpAbsorb calls for the full blocks of t, each block as a piece of t. -/
theorem map_absorb_fullBlocks (r : Nat) (t : Bytes) :
    (fullBlocks r t).map SpCall.absorb =
      (List.range (t.length / r)).map fun i => .absorb ((t.drop (i * r)).take r) := by
  rw [fullBlocks_eq, List.map_map]
  rfl

/-- Settles O13: the packet is the encoder's, each failing check decides the code, and an accepted CONSTRUCT has its effect. -/
theorem constructChecksThenBegins : Obligations.ConstructChecksThenBegins := by
  intro ps key custom s
  refine ⟨fun hkey => ?_, fun hlong => ?_, fun hkey hcustom hshort => ?_, fun hkey hcustom hmin => ?_⟩
  · have hpacket := decode_encode_construct ps hkey custom
    rw [encode, construct_header] at hpacket
    cases ps with
    | kmac128 => exact hpacket
    | kmac256 => exact hpacket
  · refine exec_construct_rejected (by decide) ?_
    obtain hkey | hcustom := hlong
    · simp [commandErr, hkey]
    · simp [commandErr, hcustom]
  · refine exec_construct_rejected (by decide) ?_
    simp [commandErr, hkey.not_gt, hcustom.not_gt, hshort]
  · rw [exec_construct_accepted ⟨hkey, hcustom, hmin⟩, beginInstance_eq, map_absorb_fullBlocks, List.append_cons]
    rfl

/-- Settles O14: both states get the fields and the calls that CONSTRUCT alone gives. -/
theorem constructForgetsThePreviousInstance : Obligations.ConstructForgetsThePreviousInstance := by
  intro ps key custom s s' h h'
  refine ⟨_, _, (fullBlocks (rate ps) (keyBlock key ps)).map .absorb, exec_construct_accepted h,
    exec_construct_accepted h', ?_⟩
  rw [beginInstance_eq, beginInstance_eq]
  refine ⟨rfl, rfl, rfl, rfl, rfl, rfl, rfl, rfl, fun c hc => ?_, rfl, rfl⟩
  obtain ⟨b, -, rfl⟩ := List.mem_map.1 hc
  exact ⟨b, rfl⟩

/-! UPDATE (41_construct_update.md): its packet, its effect, and how the effects of several UPDATEs combine. -/

theorem decode_encode_update (data : Bytes) : decode (encode (.update data)) = .ok (.update data) :=
  decode_header_append (.inl rfl) trivial (by simp [Opcode.command])

theorem exec_update_absorbing {data : Bytes} {s : State} {p : SpRec} (hp : s.phase = .absorbing) (hs : s.sp = some p) :
    exec (.update data) s = .next (afterUpdate data s p) :=
  execUpdate_absorbing hp hs

/-- The collaborator record after UPDATE(data) (R150). -/
def recAfterUpdate (data : Bytes) (s : State) (p : SpRec) : SpRec :=
  { p with absorbed := p.absorbed ++ (fullBlocks (rate s.pset) (s.buf ++ data)).flatten }

theorem afterUpdate_sp (data : Bytes) (s : State) (p : SpRec) :
    (afterUpdate data s p).sp = some (recAfterUpdate data s p) := rfl

/-- UPDATE(x2) on what UPDATE(x1) leaves has the effect of UPDATE(x1 ++ x2), the calls included (R152). -/
theorem afterUpdate_afterUpdate (x1 x2 : Bytes) (s : State) (p : SpRec) :
    afterUpdate x2 (afterUpdate x1 s p) (recAfterUpdate x1 s p) = afterUpdate (x1 ++ x2) s p := by
  have hr := rate_pos s.pset
  have hblocks := fullBlocks_append hr (s.buf ++ x1) x2
  have hrest := leftover_append hr (s.buf ++ x1) x2
  rw [List.append_assoc] at hblocks hrest
  simp [afterUpdate, recAfterUpdate, hblocks, hrest]

/-- With less than a block buffered, UPDATE of no bytes makes no call and keeps the buffer (R153). -/
theorem afterUpdate_nil {s : State} {p : SpRec} (hs : s.sp = some p) (hbuf : s.buf.length < rate s.pset) :
    afterUpdate [] s p = { s with err := .ok } := by
  simp [afterUpdate, fullBlocks_of_lt hbuf, leftover_of_lt hbuf, ← hs]

/-- Settles O17: the packet is the encoder's, and the accepted UPDATE's blocks and rest are pieces of st.buf ++ D. -/
theorem updateAbsorbsEveryFullBlock : Obligations.UpdateAbsorbsEveryFullBlock := by
  intro data s
  refine ⟨decode_encode_update data, fun hp => execUpdate_rejected hp, fun p hp hs => ?_⟩
  refine ⟨?_, length_leftover_lt (rate_pos s.pset) (s.buf ++ data)⟩
  rw [exec_update_absorbing hp hs, afterUpdate, flatten_fullBlocks, map_absorb_fullBlocks]
  rfl

/-- Settles O18: the effects of the two UPDATEs combine to that of the single one. -/
theorem updateSplitsAreEquivalent : Obligations.UpdateSplitsAreEquivalent := by
  intro x1 x2 s p hp hs
  refine ⟨_, _, exec_update_absorbing hp hs, exec_update_absorbing hp (afterUpdate_sp x1 s p), ?_⟩
  rw [exec_update_absorbing hp hs, afterUpdate_afterUpdate]

/-- Settles O19: the buffer alone fills no block. -/
theorem emptyUpdateWritesOnlyErr : Obligations.EmptyUpdateWritesOnlyErr := by
  intro s p hp hs hbuf
  rw [exec_update_absorbing hp hs, afterUpdate_nil hs hbuf]

/-! Any number of UPDATEs one after another (R151). -/

/-- UPDATEs one after another have the effect of one UPDATE with all their bytes; that one writes ERR = OK even where there are none, so OK is asked
of the state before. -/
theorem execAll_updates (xs : List Bytes) {s : State} {p : SpRec} (hp : s.phase = .absorbing) (hs : s.sp = some p)
    (hbuf : s.buf.length < rate s.pset) (herr : s.err = .ok) :
    execAll (xs.map .update) s = .next (afterUpdate xs.flatten s p) := by
  induction xs generalizing s p with
  | nil =>
    rw [List.flatten_nil, afterUpdate_nil hs hbuf, ← herr]
    rfl
  | cons x xs ih =>
    rw [List.map_cons, execAll, exec_update_absorbing hp hs, List.flatten_cons, ← afterUpdate_afterUpdate]
    exact ih hp (afterUpdate_sp x s p) (length_leftover_lt (rate_pos s.pset) _) rfl

/-- The accepted CONSTRUCT and UPDATEs: the fields they leave (R140, R150, R151). -/
theorem execAll_construct_updates {ps : ParamSet} {key custom : Bytes} {s : State} (h : Accepts s key custom)
    (xs : List Bytes) :
    execAll (.construct ps key custom :: xs.map .update) s = .next
      { s with
        phase := .absorbing, pset := ps, buf := leftover (rate ps) xs.flatten, pend := [], err := .ok
        sp := some { custom := custom, absorbed := keyBlock key ps ++ (fullBlocks (rate ps) xs.flatten).flatten
                     squeezes := 0 }
        calls := s.calls ++ .construct domainLabel custom ps ::
          (fullBlocks (rate ps) (keyBlock key ps) ++ fullBlocks (rate ps) xs.flatten).map .absorb } := by
  rw [execAll, exec_construct_accepted h, beginInstance_eq]
  refine (execAll_updates xs rfl rfl (by exact rate_pos ps) rfl).trans ?_
  simp [afterUpdate]

theorem length_of_absorb_mem {r : Nat} {t u b : Bytes} {label custom : Bytes} {ps : ParamSet}
    (h : SpCall.absorb b ∈ .construct label custom ps :: (fullBlocks r t ++ fullBlocks r u).map .absorb) :
    b.length = r := by
  have hb : b ∈ fullBlocks r t ∨ b ∈ fullBlocks r u := by simpa using h
  exact hb.elim length_of_mem_fullBlocks length_of_mem_fullBlocks

/-- Settles O20: the UPDATEs work as one, whose full blocks end where the last |X| mod R bytes of X begin. -/
theorem absorbedStreamWhileAbsorbing : Obligations.AbsorbedStreamWhileAbsorbing := by
  intro ps key custom xs s h
  have hlen := length_leftover (rate ps) xs.flatten
  have hcut : xs.flatten.length / rate ps * rate ps =
      xs.flatten.length - (leftover (rate ps) xs.flatten).length := by
    rw [hlen, Nat.div_mul_self_eq_mod_sub_self]
  refine ⟨_, _, _, execAll_construct_updates h xs, rfl, rfl, rfl, rfl, rfl, hlen, ?_, ?_, rfl, fun _ => length_of_absorb_mem, rfl⟩
  · rw [← hcut]; rfl
  · rw [← hcut, flatten_fullBlocks]

end Sys2Proof.Machine

namespace Sys2Proof.Machine

/-! FINALIZE_FIXED and FINALIZE_XOF (42_finalize.md): their packets, and what they absorb, squeeze and emit. -/

theorem exec_finalizeFixed_absorbing {len : Nat} {s : State} {p : SpRec} (hp : s.phase = .absorbing)
    (hs : s.sp = some p) (hl : 1 ≤ len) : exec (.finalizeFixed len) s = .next (afterFinalizeFixed len s p) :=
  execFinalizeFixed_absorbing hp hs (Nat.one_le_iff_ne_zero.1 hl)

theorem exec_finalizeXof_absorbing {s : State} {p : SpRec} (hp : s.phase = .absorbing) (hs : s.sp = some p) :
    exec .finalizeXof s = .next (afterFinalizeXof s p) :=
  execFinalizeXof_absorbing hp hs

theorem streamSlice_zero (z : Nat → Byte) (n : Nat) : streamSlice z 0 n = (List.range n).map z := by
  simp [streamSlice]

/-- A collaborator that meets R225 and has squeezed nothing answers the first blocks of Z. -/
theorem Port.answers_of_fresh {ps : ParamSet} {q : Port} (hc : q.collab = .meetsContract) (hsq : q.inst.squeezes = 0)
    (n : Nat) :
    q.answers ps n =
      (List.range n).map fun i => (List.range (rate ps)).map fun m => q.inst.stream ps (i * rate ps + m) := by
  simp only [Port.answers_of_meets hc, hsq, Nat.zero_add, streamSlice_block]

/-- An accepted FINALIZE_FIXED in an instance that has squeezed nothing, field by field (R171). -/
theorem afterFinalizeFixed_of_fresh {s : State} {p : SpRec} (hc : s.cfg.collab = .meetsContract)
    (hsq : p.squeezes = 0) (len : Nat) :
    afterFinalizeFixed len s p =
      { s with
        phase := .finalizedFixed, buf := [], pend := [], err := .ok
        out := s.out ++
          (List.range len).map (Config.spOut s.pset p.custom (p.absorbed ++ (s.buf ++ fixedSuffix len)))
        sp := some { custom := p.custom, absorbed := p.absorbed ++ (s.buf ++ fixedSuffix len)
                     squeezes := (len + rate s.pset - 1) / rate s.pset }
        calls := s.calls ++ (finalPieces (rate s.pset) (s.buf ++ fixedSuffix len)).map .absorb ++
          (List.range ((len + rate s.pset - 1) / rate s.pset)).map fun i =>
            .squeeze ((List.range (rate s.pset)).map fun m =>
              Config.spOut s.pset p.custom (p.absorbed ++ (s.buf ++ fixedSuffix len)) (i * rate s.pset + m)) } := by
  have hout := afterFinalizeFixed_out_of_meets hc len p
  rw [hsq, Nat.zero_mul, Nat.zero_add, streamSlice_zero] at hout
  rw [← hout]
  simp [afterFinalizeFixed, hsq, Port.squeezed, Port.answers_of_fresh, hc, SpRec.stream, Function.comp_def]

/-- With less than a block buffered, FinalAbsorb makes at most one call for a full block and one for the rest (R170). -/
theorem map_finalPieces_of_buf_lt {ps : ParamSet} {buf suf : Bytes} (hbuf : buf.length < rate ps)
    (hsuf : suf.length ≤ 10) :
    (finalPieces (rate ps) (buf ++ suf)).map SpCall.absorb =
      (if rate ps ≤ (buf ++ suf).length then [.absorb ((buf ++ suf).take (rate ps))] else []) ++
        (if (buf ++ suf).length % rate ps ≠ 0 then
          [.absorb ((buf ++ suf).drop ((buf ++ suf).length / rate ps * rate ps))] else []) := by
  have hrate := rate_ge ps
  refine map_finalPieces_of_lt (rate_pos ps) ?_
  rw [List.length_append]
  omega

/-- Settles O21: the packet is the encoder's, and the accepted command's calls are FinalAbsorb's and then the first blocks of Z. -/
theorem finalizeFixedEmitsTheFirstBytes : Obligations.FinalizeFixedEmitsTheFirstBytes := by
  intro len s
  refine ⟨fun hlen => ?_, fun hp => execFinalizeFixed_rejected hp, fun hp hzero => ?_,
    fun p hc hp hs hsq hbuf hpos hlen => ?_⟩
  · exact decodeOfEncodeIsIdentity (.finalizeFixed len) (decide_eq_true hlen)
  · subst hzero
    exact execFinalizeFixed_zero hp
  · rw [exec_finalizeFixed_absorbing hp hs hpos, afterFinalizeFixed_of_fresh hc hsq,
      map_finalPieces_of_buf_lt hbuf (length_fixedSuffix_le hlen), ← List.append_assoc s.calls]
    rfl

/-- Settles O22: the packet is the encoder's, and the accepted command's calls are FinalAbsorb's. -/
theorem finalizeXofStartsTheReader : Obligations.FinalizeXofStartsTheReader := by
  intro s
  refine ⟨decodeOfEncodeIsIdentity .finalizeXof rfl, fun hp => execFinalizeXof_rejected hp, fun p hp hs hbuf => ?_⟩
  rw [exec_finalizeXof_absorbing hp hs, afterFinalizeXof, map_finalPieces_of_buf_lt hbuf (by decide),
    ← List.append_assoc s.calls, xofSuffix_eq]

/-! The suffixes tell the output modes apart (R174). -/

/-- Streams that end with the encodings of two numbers of bits differ (R121). -/
theorem append_rightEncode_ne {x y : Nat} (hx : x < 2 ^ 67) (hy : y < 2 ^ 67) (hne : x ≠ y) (a b : Bytes) :
    a ++ (b ++ rightEncode x) ≠ a ++ (b ++ rightEncode y) := by
  intro h
  have hx9 := nbytes_le_nine hx
  have hy9 := nbytes_le_nine hy
  exact hne (append_rightEncode_inj (by omega) (by omega) (List.append_cancel_left h)).1

/-- Settles O23: the absorbed streams differ in the suffix, which encodes 8·L or 0. -/
theorem outputModesAbsorbDifferentStreams : Obligations.OutputModesAbsorbDifferentStreams := by
  intro s p hp hs
  constructor
  · intro l1 l2 h1 hlt1 h2 hlt2 hne
    exact ⟨_, _, _, _, exec_finalizeFixed_absorbing hp hs h1, exec_finalizeFixed_absorbing hp hs h2, rfl, rfl,
      append_rightEncode_ne (by omega) (by omega) (by omega) _ _⟩
  · intro l h hlt
    exact ⟨_, _, _, _, exec_finalizeFixed_absorbing hp hs h, exec_finalizeXof_absorbing hp hs, rfl, rfl,
      append_rightEncode_ne (by omega) (by omega) (by omega) _ _⟩

/-! After a finalize (R176). -/

/-- Once finalized, every command but CONSTRUCT, and READ where the output is extendable, is rejected with SEQUENCE (R38, R175, R195). -/
theorem exec_finalized_rejected {i : Instr} {s : State} (hp : s.phase = .finalizedFixed ∨ s.phase = .squeezing)
    (hconstruct : ∀ ps key custom, i ≠ .construct ps key custom)
    (hread : s.phase = .finalizedFixed ∨ ∀ n, i ≠ .read n) : exec i s = .next (s.reject .sequence) := by
  have hne : s.phase ≠ .absorbing := by intro h; simp [h] at hp
  cases i with
  | construct ps key custom => exact absurd rfl (hconstruct ps key custom)
  | update data => exact execUpdate_rejected hne
  | finalizeFixed len => exact execFinalizeFixed_rejected hne
  | finalizeXof => exact execFinalizeXof_rejected hne
  | read n =>
    have hfixed : s.phase = .finalizedFixed := hread.resolve_right fun h => h n rfl
    exact execRead_rejected (by simp [hfixed])

/-- Everything a packet that is no CONSTRUCT can do once the instance is finalized: it is rejected, a decoded one with SEQUENCE, or it is a READ of
the extendable output. -/
theorem step_finalized_cases {s : State} {q : SpRec} {p : Bytes} {rest : List HostInput}
    (hp : s.phase = .finalizedFixed ∨ s.phase = .squeezing) (hs : s.sp = some q) (hi : s.inputs = .packet p :: rest)
    (hconstruct : ∀ ps key custom, decode p ≠ .ok (.construct ps key custom)) :
    (∃ c, (∀ i, decode p = .ok i → c = .sequence) ∧ step s = .next ({ s with inputs := rest }.reject c)) ∨
      (s.phase = .squeezing ∧
        ∃ n, decode p = .ok (.read n) ∧ step s = .next (afterRead n { s with inputs := rest } q)) := by
  rw [step_packet hi]
  cases hd : decode p with
  | error e => exact .inl ⟨.illegal, nofun, deliver_error hd⟩
  | ok i =>
    rw [deliver_ok hd]
    have hi' : ∀ ps key custom, i ≠ .construct ps key custom := by
      rintro ps key custom rfl
      exact hconstruct ps key custom hd
    by_cases hread : s.phase = .finalizedFixed ∨ ∀ n, i ≠ .read n
    · exact .inl ⟨.sequence, fun _ _ => rfl, exec_finalized_rejected hp hi' hread⟩
    · push Not at hread
      obtain ⟨hfixed, n, rfl⟩ := hread
      have hsqueezing : s.phase = .squeezing := hp.resolve_left hfixed
      exact .inr ⟨hsqueezing, n, rfl, execRead_squeezing hsqueezing hs⟩

/-- Settles O24: a rejection writes only ERR and STICKY, and READ calls nothing but SpSqueeze. -/
theorem finalizeIsTerminal : Obligations.FinalizeIsTerminal := by
  intro s q p rest hp hs hi hconstruct
  obtain ⟨c, hc, hstep⟩ | ⟨hsqueezing, n, hd, hstep⟩ := step_finalized_cases hp hs hi hconstruct
  · refine ⟨_, q, [], hstep, rfl, hs, rfl, rfl, (List.append_nil _).symm, nofun, fun _ => ⟨rfl, rfl⟩, fun i hd _ => ?_⟩
    rw [hc i hd]
    rfl
  · refine ⟨_, _, _, hstep, rfl, rfl, rfl, rfl, rfl, fun c hc => ?_, fun hfixed => ?_, fun i hd' hother => ?_⟩
    · obtain ⟨a, -, rfl⟩ := List.mem_map.1 hc
      exact ⟨a, rfl⟩
    · simp [hsqueezing] at hfixed
    · obtain rfl : Instr.read n = i := Except.ok.inj (hd.symm.trans hd')
      simp [hsqueezing] at hother

/-! READs one after another (R190, R192): READ's loop goes on where the one before it stopped. -/

/-- What READ's loop works on, in a state whose collaborator record is p (R190). -/
def readerOf (s : State) (p : SpRec) : Reader where
  pend := s.pend
  out := s.out
  port := { inst := p, calls := s.calls, collab := s.cfg.collab }

theorem afterRead_eq_emitMany (n : Nat) (s : State) (p : SpRec) :
    afterRead n s p =
      { s with
        pend := (Reader.emitMany s.pset n (readerOf s p)).pend
        out := (Reader.emitMany s.pset n (readerOf s p)).out, err := .ok
        sp := some (Reader.emitMany s.pset n (readerOf s p)).port.inst
        calls := (Reader.emitMany s.pset n (readerOf s p)).port.calls } := by
  rw [Reader.emitMany_eq]
  rfl

theorem readerOf_afterRead (n : Nat) (s : State) (p : SpRec) :
    readerOf (afterRead n s p) (recAfterRead n s p) = Reader.emitMany s.pset n (readerOf s p) := by
  rw [Reader.emitMany_eq]
  rfl

theorem afterRead_afterRead (m n : Nat) (s : State) (p : SpRec) :
    afterRead n (afterRead m s p) (recAfterRead m s p) = afterRead (m + n) s p := by
  rw [afterRead_eq_emitMany n, readerOf_afterRead, afterRead_eq_emitMany (m + n), Reader.emitMany_add]
  rfl

theorem afterRead_zero {s : State} {p : SpRec} (hs : s.sp = some p) : afterRead 0 s p = { s with err := .ok } := by
  rw [afterRead_eq_emitMany, Reader.emitMany, readerOf, ← hs]

/-- READs one after another have the effect of one READ of their sum; that one writes ERR = OK even where there are none, so OK is asked of the state
before. -/
theorem execAll_reads (ns : List Nat) {s : State} {p : SpRec} (hp : s.phase = .squeezing) (hs : s.sp = some p)
    (herr : s.err = .ok) : execAll (ns.map .read) s = .next (afterRead ns.sum s p) := by
  induction ns generalizing s p with
  | nil =>
    rw [List.sum_nil, afterRead_zero hs, ← herr]
    rfl
  | cons n ns ih =>
    have hfirst : exec (.read n) s = .next (afterRead n s p) := execRead_squeezing hp hs
    rw [List.map_cons, execAll, hfirst, List.sum_cons, ← afterRead_afterRead]
    exact ih hp (afterRead_sp n s p) rfl

/-- A READ with nothing pending and nothing squeezed emits the first n bytes of Z (R190). -/
theorem afterRead_out_of_fresh {s : State} {p : SpRec} (hc : s.cfg.collab = .meetsContract) (hpend : s.pend = [])
    (hsq : p.squeezes = 0) (n : Nat) :
    (afterRead n s p).out = s.out ++ (List.range n).map (p.stream s.pset) := by
  have hsupply : n ≤ (0 + readBlocks s.pset 0 n) * rate s.pset := by
    rw [Nat.zero_add]
    exact le_mul_blocks (rate_pos s.pset) n
  simp only [afterRead, readSupply_of_meets hc, hpend, hsq, List.nil_append, List.length_nil, Nat.zero_mul]
  rw [streamSlice_take _ (by rwa [Nat.zero_add]), Nat.zero_add, streamSlice_zero]

/-- A READ with nothing pending and nothing squeezed squeezes ceil(n/R) blocks (R191). -/
theorem afterRead_sp_of_fresh {s : State} {p : SpRec} (hpend : s.pend = []) (hsq : p.squeezes = 0) (n : Nat) :
    (afterRead n s p).sp = some { p with squeezes := (n + rate s.pset - 1) / rate s.pset } := by
  rw [afterRead_sp, recAfterRead, hpend, hsq, Nat.zero_add]
  rfl

/-! The whole MAC (R173). -/

/-- The collaborator record after an accepted CONSTRUCT and UPDATEs with the whole message x (R140, R151). -/
def recAfterMessage (ps : ParamSet) (key custom x : Bytes) : SpRec where
  custom := custom
  absorbed := keyBlock key ps ++ (fullBlocks (rate ps) x).flatten
  squeezes := 0

/-- The state after an accepted CONSTRUCT and UPDATEs with the whole message x (R140, R151). -/
def afterMessage (ps : ParamSet) (key custom x : Bytes) (s : State) : State :=
  { s with
    phase := .absorbing, pset := ps, buf := leftover (rate ps) x, pend := [], err := .ok
    sp := some (recAfterMessage ps key custom x)
    calls := s.calls ++ .construct domainLabel custom ps ::
      (fullBlocks (rate ps) (keyBlock key ps) ++ fullBlocks (rate ps) x).map .absorb }

/-- CONSTRUCT and the UPDATEs leave that state for the commands after them. -/
theorem execAll_message_append {ps : ParamSet} {key custom : Bytes} {s : State} (h : Accepts s key custom)
    (xs : List Bytes) (is : List Instr) :
    execAll (.construct ps key custom :: (xs.map .update ++ is)) s =
      execAll is (afterMessage ps key custom xs.flatten s) :=
  execAll_append (execAll_construct_updates h xs)

/-- A finalize completes the absorbed stream: the key block, the whole message, the suffix (R173). -/
theorem absorbed_append_suffix (ps : ParamSet) (key custom x suf : Bytes) (s : State) :
    (recAfterMessage ps key custom x).absorbed ++ ((afterMessage ps key custom x s).buf ++ suf) =
      keyBlock key ps ++ x ++ suf := by
  simp only [recAfterMessage, afterMessage, List.append_assoc]
  rw [← List.append_assoc _ (leftover _ _), fullBlocks_append_leftover]

/-- The commands of a fixed-length MAC (R173). -/
theorem execAll_kmac {ps : ParamSet} {key custom : Bytes} {s : State} (h : Accepts s key custom) (xs : List Bytes)
    {len : Nat} (hlen : 1 ≤ len) :
    execAll (.construct ps key custom :: (xs.map .update ++ [.finalizeFixed len])) s =
      .next (afterFinalizeFixed len (afterMessage ps key custom xs.flatten s)
        (recAfterMessage ps key custom xs.flatten)) := by
  rw [execAll_message_append h, execAll, exec_finalizeFixed_absorbing rfl rfl hlen]
  rfl

/-- The collaborator record after FINALIZE_XOF (R172). -/
def recAfterFinalizeXof (s : State) (p : SpRec) : SpRec :=
  { p with absorbed := p.absorbed ++ (s.buf ++ xofSuffix) }

theorem afterFinalizeXof_sp (s : State) (p : SpRec) :
    (afterFinalizeXof s p).sp = some (recAfterFinalizeXof s p) := rfl

/-- The commands of an extendable-output MAC (R173): the READs work as one. -/
theorem execAll_kmacXof {ps : ParamSet} {key custom : Bytes} {s : State} (h : Accepts s key custom) (xs : List Bytes)
    (ns : List Nat) :
    execAll (.construct ps key custom :: (xs.map .update ++ .finalizeXof :: ns.map .read)) s =
      .next (afterRead ns.sum
        (afterFinalizeXof (afterMessage ps key custom xs.flatten s) (recAfterMessage ps key custom xs.flatten))
        (recAfterFinalizeXof (afterMessage ps key custom xs.flatten s)
          (recAfterMessage ps key custom xs.flatten))) := by
  rw [execAll_message_append h, execAll, exec_finalizeXof_absorbing rfl rfl]
  exact execAll_reads ns rfl (afterFinalizeXof_sp _ _) rfl

/-- Packets of well-formed commands, run as steps, do what the commands do one after another. -/
theorem run_packets_of_wf {cmds : List Instr} {s t : State} (hwf : ∀ i ∈ cmds, i.wf = true)
    (hi : s.inputs = cmds.map fun i => .packet (encode i)) (h : execAll cmds s = .next t) :
    Host.Core.run Sys2Proof.core cmds.length s = .next { t with inputs := [] } :=
  run_packets (fun i hmem => decodeOfEncodeIsIdentity i (hwf i hmem)) hi h

/-- Settles O29: the steps do what the commands do, and FINALIZE_FIXED absorbs what the UPDATEs left buffered, then the suffix, and emits the first
L bytes of Z. -/
theorem kmacFixedEndToEnd : Obligations.KmacFixedEndToEnd := by
  intro ps key custom xs len s hc haccepts hlen cmds hwf hinputs a
  have hexec := execAll_kmac (ps := ps) haccepts xs hlen
  rw [afterFinalizeFixed_of_fresh (by exact hc) rfl, absorbed_append_suffix] at hexec
  exact ⟨_, run_packets_of_wf hwf hinputs hexec, rfl, rfl, rfl, rfl, rfl, rfl, rfl, rfl, rfl⟩

/-- Settles O30: the steps do what the commands do, FINALIZE_XOF absorbs what the UPDATEs left buffered, then the suffix, and the READs, as one, emit
the first T bytes of Z. -/
theorem kmacXofEndToEnd : Obligations.KmacXofEndToEnd := by
  intro ps key custom xs ns s hc haccepts cmds hwf hinputs a
  have hexec := execAll_kmacXof (ps := ps) haccepts xs ns
  rw [recAfterFinalizeXof, absorbed_append_suffix] at hexec
  exact ⟨_, run_packets_of_wf hwf hinputs hexec, rfl, rfl, afterRead_sp_of_fresh rfl rfl ns.sum,
    afterRead_out_of_fresh (by exact hc) rfl rfl ns.sum, rfl, rfl, rfl⟩

end Sys2Proof.Machine

namespace Sys2Proof.Machine

/-! READ and the Reader's sub-states (43_xof_reader.md). -/

theorem exec_read_squeezing {n : Nat} {s : State} {p : SpRec} (hp : s.phase = .squeezing) (hs : s.sp = some p) :
    exec (.read n) s = .next (afterRead n s p) :=
  execRead_squeezing hp hs

/-- A collaborator that meets R225 answers the next blocks of Z, byte by byte. -/
theorem Port.answers_eq_bytes_of_meets {ps : ParamSet} {q : Port} (hc : q.collab = .meetsContract) (m : Nat) :
    q.answers ps m = (List.range m).map fun i =>
      (List.range (rate ps)).map fun k => q.inst.stream ps ((q.inst.squeezes + i) * rate ps + k) := by
  simp only [Port.answers_of_meets hc, streamSlice_block]

/-- READ(n) squeezes only once st.pend is used up (R190). -/
theorem readBlocks_eq_ite (ps : ParamSet) (q n : Nat) :
    readBlocks ps q n = if n ≤ q then 0 else (n - q + rate ps - 1) / rate ps := by
  split_ifs with h
  · exact readBlocks_of_le h
  · rfl

/-- Settles O25: the packet is the encoder's, and the accepted READ has st.pend and then the next blocks of Z at hand. -/
theorem readEmitsTheNextBytes : Obligations.ReadEmitsTheNextBytes := by
  intro n s
  refine ⟨fun hn => ?_, fun hp => execRead_rejected hp, fun p hc hp hs => ?_⟩
  · exact decodeOfEncodeIsIdentity (.read n) (decide_eq_true hn)
  · rw [exec_read_squeezing hp hs, afterRead, readSupply, Port.squeezed, readBlocks_eq_ite,
      Port.answers_eq_bytes_of_meets (by exact hc)]
    rfl

/-- The blocks READ(n) is answered, in a state whose collaborator record is p (R190). -/
def readAnswers (n : Nat) (s : State) (p : SpRec) : List Bytes :=
  (readerOf s p).port.answers s.pset (readBlocks s.pset s.pend.length n)

theorem length_readAnswers (n : Nat) (s : State) (p : SpRec) :
    (readAnswers n s p).length = readBlocks s.pset s.pend.length n := Port.length_answers _ _ _

theorem readSupply_eq (n : Nat) (s : State) (p : SpRec) : readSupply n s p = s.pend ++ (readAnswers n s p).flatten := rfl

/-- READ(n) with at least n bytes pending is answered nothing (R191). -/
theorem readAnswers_of_le {n : Nat} {s : State} (h : n ≤ s.pend.length) (p : SpRec) : readAnswers n s p = [] := by
  rw [readAnswers, readBlocks_of_le h]
  rfl

/-- READ(n) with fewer than n bytes pending emits them all, and the rest of the n from the answers (R191). -/
theorem take_readSupply_of_lt {n : Nat} {s : State} (h : s.pend.length < n) (p : SpRec) :
    (readSupply n s p).take n = s.pend ++ (readAnswers n s p).flatten.take (n - s.pend.length) := by
  rw [readSupply_eq, List.take_append, List.take_of_length_le h.le]

/-- READ(n) keeps pending what it has at hand but for n bytes (R191). -/
theorem length_afterRead_pend (n : Nat) (s : State) (p : SpRec) :
    (afterRead n s p).pend.length = s.pend.length + readBlocks s.pset s.pend.length n * rate s.pset - n := by
  rw [afterRead_pend, List.length_drop, length_readSupply]

/-- From fewer than R pending bytes, READ(n) moves the Reader's sub-state on by n, modulo R (R191). -/
theorem length_afterRead_pend_emod {s : State} (hpend : s.pend.length < rate s.pset) (n : Nat) (p : SpRec) :
    ((afterRead n s p).pend.length : Int) = ((s.pend.length : Int) - n) % (rate s.pset : Int) := by
  have hn := le_length_readSupply n s p
  have hlt := length_readSupply_lt hpend n p
  rw [length_readSupply] at hn hlt
  have hlen := length_afterRead_pend n s p
  have hshift : (s.pend.length : Int) - n =
      (afterRead n s p).pend.length + -(readBlocks s.pset s.pend.length n : Int) * rate s.pset := by
    rw [hlen]
    push_cast [hn]
    ring
  rw [hshift, Int.add_mul_emod_self_right, Int.emod_eq_of_lt (by omega) (by omega)]

/-- Settles O26: the calls and bytes are those READ(n) has at hand, and FINALIZE_XOF squeezes nothing. -/
theorem readerSubstates : Obligations.ReaderSubstates := by
  constructor
  · intro n s q hp hs hpend
    refine ⟨_, readAnswers n s q, (readSupply n s q).take n, exec_read_squeezing hp hs, ?_, rfl,
      fun a ha => Port.length_of_mem_answers ha, fun hc => ?_, rfl, List.length_take_of_le (le_length_readSupply n s q),
      fun hle => ⟨readAnswers_of_le hle q, ?_, ?_⟩, fun hlt => ⟨length_readAnswers n s q, take_readSupply_of_lt hlt q, ?_⟩,
      length_afterRead_pend_emod hpend n q⟩
    · rw [length_readAnswers]
      rfl
    · rw [length_readAnswers]
      exact Port.answers_eq_bytes_of_meets hc _
    · rw [readSupply_eq, readAnswers_of_le hle, List.flatten_nil, List.append_nil]
    · rw [length_afterRead_pend, readBlocks_of_le hle, Nat.zero_mul, Nat.add_zero]
    · rw [length_afterRead_pend, length_readAnswers, Nat.mul_comm]
      omega
  · intro s q hp hs hsq
    exact ⟨_, _, exec_finalizeXof_absorbing hp hs, rfl, rfl, afterFinalizeXof_sp s q, hsq⟩

/-- Settles O27: READ's loop goes on where the one before it stopped. -/
theorem readSplitsAreEquivalent : Obligations.ReadSplitsAreEquivalent := by
  intro a b s p hp hs
  refine ⟨_, _, exec_read_squeezing hp hs, exec_read_squeezing hp (afterRead_sp a s p), ?_⟩
  rw [exec_read_squeezing hp hs, afterRead_afterRead]

/-- FINALIZE_XOF and READs one after another: the READs work as one (R192). -/
theorem execAll_finalizeXof_reads (ns : List Nat) {s : State} {p : SpRec} (hp : s.phase = .absorbing)
    (hs : s.sp = some p) :
    execAll (.finalizeXof :: ns.map .read) s =
      .next (afterRead ns.sum (afterFinalizeXof s p) (recAfterFinalizeXof s p)) := by
  rw [execAll, exec_finalizeXof_absorbing hp hs]
  exact execAll_reads ns rfl (afterFinalizeXof_sp s p) rfl

/-- A READ with nothing pending and nothing squeezed keeps pending the bytes of Z from byte n to the end of its last block (R192). -/
theorem afterRead_pend_of_fresh {s : State} {p : SpRec} (hc : s.cfg.collab = .meetsContract) (hpend : s.pend = [])
    (hsq : p.squeezes = 0) (n : Nat) :
    (afterRead n s p).pend =
      streamSlice (p.stream s.pset) n ((n + rate s.pset - 1) / rate s.pset * rate s.pset) := by
  have hsupply := le_mul_blocks (rate_pos s.pset) n
  rw [afterRead_pend, readSupply_of_meets hc, hpend, hsq, List.nil_append, List.length_nil, Nat.zero_mul, Nat.zero_add,
    readBlocks, Nat.sub_zero, streamSlice_drop _ (by rwa [Nat.zero_add]), Nat.zero_add]

/-- Settles O28: the READs work as one, from the start of Z. -/
theorem streamingConsistency : Obligations.StreamingConsistency := by
  intro ns s p hc hp hs hsq
  have hsq' : (recAfterFinalizeXof s p).squeezes = 0 := hsq
  have hc' : (afterFinalizeXof s p).cfg.collab = .meetsContract := hc
  have hpend := afterRead_pend_of_fresh hc' rfl hsq' ns.sum
  refine ⟨_, _, execAll_finalizeXof_reads ns hp hs, rfl, afterRead_sp_of_fresh rfl hsq' ns.sum, rfl, ?_,
    afterRead_out_of_fresh hc' rfl hsq' ns.sum, rfl, ?_, ?_⟩
  · rw [← xofSuffix_eq, List.append_assoc]
    rfl
  · rw [hpend, length_streamSlice, Nat.mul_comm]
    rfl
  · rw [hpend, length_streamSlice]
    rfl

end Sys2Proof.Machine

namespace Sys2Proof.Machine

/-! The collaborator port's protocol (60_exceptions.md rules R224, R225): each operation on an open instance keeps the history of calls legal. -/

/-- The history of calls is legal and ends in this instance, opened with parameter set ps. -/
def Port.Legal (ps : ParamSet) (q : Port) : Prop := portTrace q.collab q.calls = .live ps q.inst

theorem portTrace_concat (c : Collaborator) (calls : List SpCall) (call : SpCall) :
    portTrace c (calls ++ [call]) = (portTrace c calls).next c call := by
  simp [portTrace]

/-- SpConstruct with the label "KMAC" opens a legal instance after any legal history (R224). -/
theorem Port.legal_opened {calls : List SpCall} {c : Collaborator} (h : portTrace c calls ≠ .broken) (ps : ParamSet)
    (custom : Bytes) : (Port.opened ps custom calls c).Legal ps := by
  rw [Port.Legal, Port.opened_calls, Port.opened_collab, portTrace_concat]
  cases ht : portTrace c calls with
  | fresh => simp [PortTrace.next]
  | live ps' p => simp [PortTrace.next]
  | broken => exact absurd ht h

/-- SpAbsorb of 1 to R bytes is legal before the first SpSqueeze (R224). -/
theorem Port.Legal.absorb {ps : ParamSet} {q : Port} (h : q.Legal ps) (hsq : q.inst.squeezes = 0) {b : Bytes}
    (hb : 1 ≤ b.length ∧ b.length ≤ rate ps) : (q.absorb b).Legal ps := by
  rw [Port.Legal] at h
  rw [Port.Legal, Port.absorb_calls, Port.absorb_collab, portTrace_concat, h]
  simp [PortTrace.next, hsq, hb]

theorem Port.Legal.absorbAll {ps : ParamSet} {q : Port} (h : q.Legal ps) (hsq : q.inst.squeezes = 0)
    {bs : List Bytes} (hbs : ∀ b ∈ bs, 1 ≤ b.length ∧ b.length ≤ rate ps) : (q.absorbAll bs).Legal ps := by
  induction bs generalizing q with
  | nil => exact h
  | cons b bs ih =>
    obtain ⟨hb, hrest⟩ := List.forall_mem_cons.1 hbs
    exact ih (h.absorb hsq hb) hsq hrest

/-- SpSqueeze is legal at any time: the recorded answer has R bytes, those of R225 where the collaborator meets it (R224, R225). -/
theorem Port.Legal.squeeze {ps : ParamSet} {q : Port} (h : q.Legal ps) : (q.squeeze ps).Legal ps := by
  have hanswer : q.collab = .meetsContract → q.answer ps = q.inst.answer ps := fun hc => by simp [Port.answer, hc]
  rw [Port.Legal] at h
  rw [Port.Legal, Port.squeeze_calls, Port.squeeze_collab, portTrace_concat, h, PortTrace.next,
    if_pos ⟨q.length_answer ps, hanswer⟩, Port.squeeze_inst]

theorem Port.Legal.squeezed {ps : ParamSet} {q : Port} (h : q.Legal ps) (m : Nat) : (q.squeezed ps m).Legal ps := by
  induction m generalizing q with
  | zero => rwa [Port.squeezed_zero]
  | succ m ih =>
    rw [← Port.squeeze_squeezed]
    exact ih h.squeeze

/-! The pieces the commands absorb have 1 to R bytes. -/

theorem length_of_mem_fullBlocks_rate {ps : ParamSet} {t b : Bytes} (h : b ∈ fullBlocks (rate ps) t) :
    1 ≤ b.length ∧ b.length ≤ rate ps := by
  rw [length_of_mem_fullBlocks h]
  exact ⟨rate_pos ps, le_rfl⟩

/-- FinalAbsorb's partial piece is there only where a byte is left over, and is less than a block (R170). -/
theorem length_of_mem_finalPieces {ps : ParamSet} {t b : Bytes} (h : b ∈ finalPieces (rate ps) t) :
    1 ≤ b.length ∧ b.length ≤ rate ps := by
  rw [finalPieces, List.mem_append] at h
  obtain hfull | hpartial := h
  · exact length_of_mem_fullBlocks_rate hfull
  · split at hpartial
    next hrest =>
      rw [List.mem_singleton] at hpartial
      rw [hpartial, length_leftover]
      exact ⟨Nat.one_le_iff_ne_zero.2 hrest, (Nat.mod_lt _ (rate_pos ps)).le⟩
    next => simp at hpartial

/-! Every step keeps the protocol. -/

/-- The instance a command of s works on, p being the collaborator record. -/
def portOf (s : State) (p : SpRec) : Port where
  inst := p
  calls := s.calls
  collab := s.cfg.collab

theorem PortOk.legal_portOf {s : State} (h : PortOk s) {p : SpRec} (hs : s.sp = some p) : (portOf s p).Legal s.pset :=
  h.2 p hs

theorem portOk_of_legal {s : State} {p : SpRec} (hs : s.sp = some p) (h : (portOf s p).Legal s.pset) : PortOk s := by
  rw [Port.Legal] at h
  refine ⟨fun hbroken => ?_, fun p' hs' => ?_⟩
  · exact PortTrace.noConfusion (h.symm.trans hbroken)
  · obtain rfl : p = p' := Option.some.inj (hs.symm.trans hs')
    exact h

theorem PortOk.withInputs {s : State} (h : PortOk s) (inputs : List HostInput) : PortOk { s with inputs := inputs } := h

theorem PortOk.recordStatusRead {s : State} (h : PortOk s) : PortOk s.recordStatusRead := h

theorem PortOk.reject {s : State} (h : PortOk s) (c : ErrCode) : PortOk (s.reject c) := h

theorem PortOk.hardReset {s : State} (h : PortOk s) : PortOk s.hardReset := ⟨h.1, nofun⟩

/-- CONSTRUCT's calls are an SpConstruct and SpAbsorbs of whole blocks (R142). -/
theorem PortOk.beginInstance {s : State} (h : PortOk s) (ps : ParamSet) (key custom : Bytes) :
    PortOk (beginInstance ps key custom s) := by
  have hlegal := (Port.legal_opened h.1 ps custom).absorbAll rfl (bs := fullBlocks (rate ps) (keyBlock key ps))
    fun _ => length_of_mem_fullBlocks_rate
  rw [Port.Legal, Port.absorbAll_collab] at hlegal
  exact portOk_of_legal rfl hlegal

/-- In ABSORBING the pieces that UPDATE and the finalizes absorb leave the instance legal. -/
theorem PortOk.legal_absorbAll {s : State} {p : SpRec} (h : PortOk s) (hinv : PhaseInv s) (hp : s.phase = .absorbing)
    (hs : s.sp = some p) {bs : List Bytes} (hbs : ∀ b ∈ bs, 1 ≤ b.length ∧ b.length ≤ rate s.pset) :
    ((portOf s p).absorbAll bs).Legal s.pset := by
  obtain ⟨-, hsq, -⟩ := hinv.absorbed hp hs
  exact (h.legal_portOf hs).absorbAll hsq hbs

theorem PortOk.afterUpdate {s : State} {p : SpRec} (h : PortOk s) (hinv : PhaseInv s) (hp : s.phase = .absorbing)
    (hs : s.sp = some p) (data : Bytes) : PortOk (afterUpdate data s p) := by
  have hlegal := h.legal_absorbAll hinv hp hs (bs := fullBlocks (rate s.pset) (s.buf ++ data))
    fun _ => length_of_mem_fullBlocks_rate
  rw [Port.absorbAll_eq] at hlegal
  exact portOk_of_legal rfl hlegal

/-- The instance after FinalAbsorb(suf), p being the record before: it has absorbed all of st.buf and the suffix (R170). -/
def portAfterFinalAbsorb (suf : Bytes) (s : State) (p : SpRec) : Port where
  inst := { p with absorbed := p.absorbed ++ (s.buf ++ suf) }
  calls := s.calls ++ (finalPieces (rate s.pset) (s.buf ++ suf)).map .absorb
  collab := s.cfg.collab

theorem finalAbsorb_portOf (suf : Bytes) (s : State) (p : SpRec) :
    (portOf s p).finalAbsorb (rate s.pset) s.buf suf = portAfterFinalAbsorb suf s p := by
  rw [Port.finalAbsorb, Port.absorbAll_eq, flatten_finalPieces]
  rfl

theorem PortOk.legal_finalAbsorb {s : State} {p : SpRec} (h : PortOk s) (hinv : PhaseInv s) (hp : s.phase = .absorbing)
    (hs : s.sp = some p) (suf : Bytes) : (portAfterFinalAbsorb suf s p).Legal s.pset := by
  rw [← finalAbsorb_portOf]
  exact h.legal_absorbAll hinv hp hs fun _ => length_of_mem_finalPieces

theorem PortOk.afterFinalizeXof {s : State} {p : SpRec} (h : PortOk s) (hinv : PhaseInv s) (hp : s.phase = .absorbing)
    (hs : s.sp = some p) : PortOk (afterFinalizeXof s p) :=
  portOk_of_legal (afterFinalizeXof_sp s p) (h.legal_finalAbsorb hinv hp hs xofSuffix)

theorem PortOk.afterFinalizeFixed {s : State} {p : SpRec} (h : PortOk s) (hinv : PhaseInv s) (hp : s.phase = .absorbing)
    (hs : s.sp = some p) (len : Nat) : PortOk (afterFinalizeFixed len s p) :=
  portOk_of_legal rfl ((h.legal_finalAbsorb hinv hp hs (fixedSuffix len)).squeezed _)

theorem PortOk.afterRead {s : State} {p : SpRec} (h : PortOk s) (hs : s.sp = some p) (n : Nat) :
    PortOk (afterRead n s p) :=
  portOk_of_legal (afterRead_sp n s p) ((h.legal_portOf hs).squeezed _)

theorem portOk_of_exec {s t : State} {i : Instr} (hinv : PhaseInv s) (h : PortOk s) (hx : exec i s = .next t) :
    PortOk t := by
  rcases exec_next_cases hx with ⟨-, rfl⟩ | ⟨hok, heff⟩
  · exact h.reject _
  cases i with
  | construct ps key custom =>
    obtain rfl : t = beginInstance ps key custom s := heff
    exact h.beginInstance ps key custom
  | update data =>
    obtain ⟨p, hs, rfl⟩ := heff
    exact h.afterUpdate hinv (commandErr_update_eq_ok.1 hok) hs data
  | finalizeFixed len =>
    obtain ⟨p, hs, rfl⟩ := heff
    obtain ⟨hp, -⟩ := commandErr_finalizeFixed_eq_ok.1 hok
    exact h.afterFinalizeFixed hinv hp hs len
  | finalizeXof =>
    obtain ⟨p, hs, rfl⟩ := heff
    exact h.afterFinalizeXof hinv (commandErr_finalizeXof_eq_ok.1 hok) hs
  | read n =>
    obtain ⟨p, hs, rfl⟩ := heff
    exact h.afterRead hs n

/-- Settles O41: only a command calls the collaborator, and each command's calls keep its instance legal; R35 says that nothing is squeezed before
the finalize. -/
theorem stepKeepsThePortProtocol : Obligations.StepKeepsThePortProtocol := by
  intro s t hinv h hx
  rcases step_next_cases hx with ⟨-, rfl⟩ | ⟨rest, -, rfl⟩ | ⟨rest, -, rfl⟩ | ⟨p, rest, e, -, -, rfl⟩ |
    ⟨p, rest, i, -, -, hexec⟩
  · exact h
  · exact (h.withInputs rest).recordStatusRead
  · exact (h.withInputs rest).hardReset
  · exact (h.withInputs rest).reject _
  · exact portOk_of_exec (hinv.withInputs rest).phaseInv (h.withInputs rest) hexec

/-! What a packet reports, and what it leaves when it is rejected (60_exceptions.md rules R210, R217, R218). -/

theorem step_of_packet_err {s t : State} {p : Bytes} {rest : List HostInput} (hi : s.inputs = .packet p :: rest)
    (h : step s = .next t) : t.err = packetErr p s := by
  rw [step_packet hi] at h
  cases hd : decode p with
  | error e =>
    rw [deliver_error hd] at h
    cases h
    simp [packetErr, hd]
  | ok i =>
    rw [deliver_ok hd] at h
    rw [exec_err h, packetErr, hd]
    rfl

/-- A packet that reports a code other than OK has written ERR and STICKY and nothing else (R218). -/
theorem step_of_packet_rejected {s t : State} {p : Bytes} {rest : List HostInput} (hi : s.inputs = .packet p :: rest)
    (h : step s = .next t) (hne : t.err ≠ .ok) : t = { s with inputs := rest }.reject t.err := by
  rw [step_packet hi] at h
  cases hd : decode p with
  | error e =>
    rw [deliver_error hd] at h
    cases h
    rfl
  | ok i =>
    rw [deliver_ok hd] at h
    obtain ⟨-, rfl⟩ | ⟨-, q, rfl⟩ := exec_next_effect h
    · rfl
    · exact absurd (effect_err q _ i) hne

/-- With ENC_LIMIT = 255 the operands of a command that fits a packet can be encoded: nine bytes hold their lengths in bits (R117, R212). -/
theorem commandErr_ne_invalidLength_of_wf {i : Instr} (hwf : i.wf = true) {s : State} (hlimit : s.cfg.encLimit = 255) :
    commandErr i s ≠ .invalidLength := by
  cases i with
  | construct ps key custom =>
    have hlen : 12 + key.length + custom.length < 2 ^ 64 := of_decide_eq_true hwf
    have hkey : nbytes (8 * key.length) ≤ 9 := nbytes_le_nine (by omega)
    have hcustom : nbytes (8 * custom.length) ≤ 9 := nbytes_le_nine (by omega)
    simp only [commandErr, hlimit]
    rw [if_neg (by omega), if_neg (by omega)]
    split_ifs <;> simp
  | _ => exact commandErr_ne_invalidLength (by simp) s

theorem packetErr_ne_invalidLength {p : Bytes} (hlen : p.length < 2 ^ 64) {s : State} (hlimit : s.cfg.encLimit = 255) :
    packetErr p s ≠ .invalidLength := by
  cases hd : decode p with
  | error e => simp [packetErr, hd]
  | ok i =>
    rw [packetErr, hd]
    exact commandErr_ne_invalidLength_of_wf (encodeOfDecodeIsIdentity p i hlen hd).2 hlimit

/-- Settles O16: a packet of fewer than 2^64 bytes carries a well-formed command, whose lengths encode in nine bytes. -/
theorem normativeLimitNeverRejects : Obligations.NormativeLimitNeverRejects := by
  intro s t p rest hlimit hi hlen hstep
  rw [step_of_packet_err hi hstep]
  exact packetErr_ne_invalidLength hlen hlimit

theorem Inv.step_next {s : State} (h : Inv s) : ∃ t, step s = .next t := by
  obtain hnext | ⟨hsp, hphase, -⟩ := step_next_or_fault s
  · exact hnext
  · exact absurd hsp (h.phaseInv.sp_ne_none hphase)

/-- Settles O32: the invariant gives a next state, and its ERR is the code of the order of checks. -/
theorem firstFailingCheckIsReported : Obligations.FirstFailingCheckIsReported := by
  intro s p rest hinv hi
  obtain ⟨t, hstep⟩ := hinv.step_next
  refine ⟨t, hstep, ?_⟩
  rw [step_of_packet_err hi hstep, packetErr]
  cases decode p with
  | error e => rfl
  | ok i => cases i <;> rfl

/-- Settles O33: what a rejection writes is ERR and STICKY. -/
theorem rejectionIsPrecise : Obligations.RejectionIsPrecise := by
  intro s t p rest hi hstep hne
  exact step_of_packet_rejected hi hstep hne

theorem step_inputs {s t : State} (h : step s = .next t) : t.inputs = s.inputs.tail := by
  rcases step_next_cases h with ⟨hi, rfl⟩ | ⟨rest, hi, rfl⟩ | ⟨rest, hi, rfl⟩ | ⟨p, rest, e, hi, -, rfl⟩ |
    ⟨p, rest, i, hi, -, hexec⟩
  · rw [hi]; rfl
  · rw [hi]; rfl
  · rw [hi]; rfl
  · rw [hi]; rfl
  · rw [hi, exec_inputs hexec]; rfl

/-- Settles O42: the invariant leaves no input stuck, and every step takes the oldest one. -/
theorem everyInputIsAnswered : Obligations.EveryInputIsAnswered := by
  intro s hinv
  obtain ⟨t, hstep⟩ := hinv.step_next
  exact ⟨t, hstep, step_inputs hstep⟩

/-! The bytes emitted are the answers (60_exceptions.md rule R226). -/

/-- The blocks FINALIZE_FIXED(len) is answered (R171). -/
def fixedAnswers (len : Nat) (s : State) (p : SpRec) : List Bytes :=
  (portAfterFinalAbsorb (fixedSuffix len) s p).answers s.pset ((len + rate s.pset - 1) / rate s.pset)

/-- Settles O45: the squeezes of both loops in closed form, whose answers depend on the collaborator only in their values. -/
theorem emittedBytesAreTheAnswers : Obligations.EmittedBytesAreTheAnswers := by
  constructor
  · intro n s p hp hs r m
    have hm : readBlocks s.pset s.pend.length n = m := readBlocks_eq_ite _ _ _
    refine ⟨readAnswers n s p, (length_readAnswers n s p).trans hm, fun a ha => Port.length_of_mem_answers ha,
      fun hc i hi => ?_, ?_⟩
    · exact Port.answers_of_departs hc (hm.symm ▸ hi)
    · rw [exec_read_squeezing hp hs, ← hm]
      rfl
  · intro len s p hp hs hbuf hpos hlen r t m c
    have hcalls : (portAfterFinalAbsorb (fixedSuffix len) s p).calls = c := by
      rw [portAfterFinalAbsorb, map_finalPieces_of_buf_lt hbuf (length_fixedSuffix_le hlen), ← List.append_assoc s.calls]
      rfl
    refine ⟨fixedAnswers len s p, Port.length_answers _ _ _, fun a ha => Port.length_of_mem_answers ha,
      fun hc i hi => ?_, ?_⟩
    · rw [← hcalls]
      exact Port.answers_of_departs hc hi
    · rw [exec_finalizeFixed_absorbing hp hs hpos, ← hcalls]
      rfl

end Sys2Proof.Machine

namespace Sys2Proof.Machine

/-! Hardware reset and the state at power-on (70_reset_and_hazards.md rules R250, R251, R253). -/

/-- The storage of an empty buffer is all zero (R250). -/
@[simp] theorem storageOf_nil : storageOf [] = List.replicate 168 0 := rfl

@[simp] theorem State.hardReset_fill (s : State) : s.hardReset.fill = 0 := rfl

theorem State.reset_status : State.reset.status = 0 := rfl

/-- STATUS reads after any reset as it does at power-on (R250). -/
@[simp] theorem State.hardReset_status (s : State) : s.hardReset.status = 0 :=
  (rfl : s.hardReset.status = State.reset.status).trans State.reset_status

@[simp] theorem State.hardReset_bufStorage (s : State) : s.hardReset.bufStorage = List.replicate 168 0 := storageOf_nil

@[simp] theorem State.hardReset_pendStorage (s : State) : s.hardReset.pendStorage = List.replicate 168 0 := storageOf_nil

/-- A reset moves the mark to the end of the output history, so nothing counts as emitted since (R27, R250). -/
@[simp] theorem State.hardReset_outSinceReset (s : State) : s.hardReset.outSinceReset = [] :=
  List.drop_eq_nil_of_le le_rfl

/-- Settles O38: the step is the reset, whose derived views read R250's values. -/
theorem hardwareResetRestoresTheTable : Obligations.HardwareResetRestoresTheTable := by
  intro s rest hi
  exact ⟨_, step_reset hi, by simp⟩

theorem Config.atReset_inRange : Config.atReset.inRange := ⟨by decide, le_rfl⟩

/-- The invariant starts at power-on: the block is UNCONSTRUCTED and empty, and nothing has been rejected. -/
theorem inv_reset : Inv State.reset where
  phaseInv := (phaseInv_unconstructed_iff rfl).2 ⟨rfl, rfl, rfl, rfl, rfl⟩
  cfgInRange := Config.atReset_inRange
  stickyOfErr := fun hne => absurd rfl hne
  markInside := le_rfl

/-- The port protocol starts at power-on: an empty history is legal, and there is no instance for st.sp to record (R224). -/
theorem portOk_reset : PortOk State.reset := ⟨nofun, nofun⟩

/-- Settles O39: the values are the definition's, and the invariants start there. -/
theorem powerOnStateIsLegal : Obligations.PowerOnStateIsLegal :=
  ⟨rfl, rfl, rfl, rfl, rfl, rfl, rfl, rfl, State.reset_status, rfl, rfl, rfl, inv_reset, portOk_reset⟩

end Sys2Proof.Machine
